-- ==== Sys2Proof/Word.lean ====
section
/-! DEFINITION. The word types of the block (spec/00_scope.md R6, R7). -/

namespace Sys2Proof

/-- `u8`: what an 8-bit slot holds (R6). -/
abbrev Byte := BitVec 8

/-- `u16`: what a 16-bit slot or a pair view holds (R6). -/
abbrev Word := BitVec 16

/-- One transaction word, 32 bits (R6, R37). -/
abbrev TxnWord := BitVec 32

end Sys2Proof
end

