-- ==== Sys2Proof/Syntax.lean ====
section
/-! DEFINITION. The operations of the block and the names their operands are drawn from
(spec/30_encoding.md sections 1 to 3, spec/10_state.md sections 1 to 3). The numeric codes of the selectors stand in
Decode.lean. -/

namespace Sys2Proof

/-- The eight 8-bit slots (R10). -/
inductive Slot8 where
  | a | f | b | c | d | e | h | l
  deriving DecidableEq, Repr

/-- The two 16-bit slots (R11). -/
inductive Slot16 where
  | sp | pc
  deriving DecidableEq, Repr

/-- Any of the ten slots: what a written bit is kept for (R18) and what an Uninitialised fault records (R51). -/
inductive Slot where
  | byte (x : Slot8)
  | word (x : Slot16)
  deriving DecidableEq, Repr

/-- The 8-bit register selector `r8` (R29). `hlMem` is code 6, `(HL)`, which names no slot. -/
inductive R8 where
  | b | c | d | e | h | l | hlMem | a
  deriving DecidableEq, Repr

/-- The 16-bit port selector `p16` (R34). -/
inductive P16 where
  | bc | de | hl | sp | af | pc
  deriving DecidableEq, Repr

/-- The flags, and so the values of the flag selector `fsel` (R14, R36). -/
inductive Flag where
  | c | h | n | z
  deriving DecidableEq, Repr

/-- The 16-bit register-pair selector `rr` of the client's decoder (R30). -/
inductive Rr where
  | bc | de | hl | sp
  deriving DecidableEq, Repr

/-- The 16-bit stack-pair selector `qq` (R31). -/
inductive Qq where
  | bc | de | hl | af
  deriving DecidableEq, Repr

/-- The 16-bit memory-pair selector `mm` (R32): BC, DE, (HL+), (HL−). -/
inductive Mm where
  | bc | de | hlInc | hlDec
  deriving DecidableEq, Repr

/-- The condition-code selector `cc` (R33). No operation takes it. -/
inductive Cc where
  | nz | z | nc | c
  deriving DecidableEq, Repr

/-- The seven operations (R37, spec/opcode_table.json), one constructor per row. -/
inductive Instr where
  | reset
  | read8 (r : R8)
  | write8 (r : R8) (v : Byte)
  | read16 (p : P16)
  | write16 (p : P16) (v : Word)
  | flag (f : Flag)
  | setFlag (f : Flag) (v : Bool)
  deriving DecidableEq, Repr

end Sys2Proof
end

