-- ==== Sys2Proof/WellFormed.lean ====
section
/-! DEFINITION. Which operations lie in the source's "closed, already-validated selector domain"
(spec/60_exceptions.md R52). The types of Syntax.lean already exclude every operand that has no encoding; what is left to
check is that an 8-bit selector names a register, since code 6, `(HL)`, names a memory operand (R29, C3).
This reading of well-formed is the model's (DESIGN CHOICE, log entry 11). An operation outside the domain still decodes (R38), still encodes, and still has a meaning: it faults NotARegister
(R54). -/

namespace Sys2Proof

/-- The selector names an 8-bit register of the block (R29). -/
def R8.namesRegister : R8 → Bool
  | .hlMem => false
  | .b | .c | .d | .e | .h | .l | .a => true

/-- The operation lies in the source's domain (R52). -/
def Instr.wellFormed : Instr → Bool
  | .read8 r => r.namesRegister
  | .write8 r _ => r.namesRegister
  | .reset | .read16 _ | .write16 _ _ | .flag _ | .setFlag _ _ => true

end Sys2Proof
end

