-- ==== Sys2Proof/Decode.lean ====
section
/-! DEFINITION. The selector codes, the decoder, the opcode table and the encoder
(spec/30_encoding.md R28 to R39). -/

namespace Sys2Proof

/-! ### Selector codes (R29 to R36) -/

/-- The `r8` selector of a 3-bit code (R29): every code names one. -/
def R8.ofCode (c : BitVec 3) : R8 :=
  match c.toNat with
  | 0 => .b
  | 1 => .c
  | 2 => .d
  | 3 => .e
  | 4 => .h
  | 5 => .l
  | 6 => .hlMem
  | _ => .a

/-- The code of an `r8` selector (R29). -/
def R8.code : R8 → BitVec 3
  | .b => 0
  | .c => 1
  | .d => 2
  | .e => 3
  | .h => 4
  | .l => 5
  | .hlMem => 6
  | .a => 7

/-- The `p16` selector of a 3-bit code; 6 and 7 are reserved (R34). -/
def P16.ofCode? (c : BitVec 3) : Option P16 :=
  match c.toNat with
  | 0 => some .bc
  | 1 => some .de
  | 2 => some .hl
  | 3 => some .sp
  | 4 => some .af
  | 5 => some .pc
  | _ => none

/-- The code of a `p16` selector (R34). -/
def P16.code : P16 → BitVec 3
  | .bc => 0
  | .de => 1
  | .hl => 2
  | .sp => 3
  | .af => 4
  | .pc => 5

/-- The bit position of a flag in F, which is also its `fsel` code (R14, R36). -/
def Flag.pos : Flag → Nat
  | .c => 4
  | .h => 5
  | .n => 6
  | .z => 7

/-- The `fsel` code of a flag is its bit position (R36). -/
def Flag.code (f : Flag) : BitVec 3 := BitVec.ofNat 3 f.pos

/-- The flag of a 3-bit `fsel` code; 0 to 3 are reserved (R36). -/
def Flag.ofCode? (c : BitVec 3) : Option Flag :=
  match c.toNat with
  | 4 => some .c
  | 5 => some .h
  | 6 => some .n
  | 7 => some .z
  | _ => none

/-- The code of an `rr` selector (R30). -/
def Rr.code : Rr → BitVec 2
  | .bc => 0
  | .de => 1
  | .hl => 2
  | .sp => 3

/-- The code of a `qq` selector (R31). -/
def Qq.code : Qq → BitVec 2
  | .bc => 0
  | .de => 1
  | .hl => 2
  | .af => 3

/-- The code of an `mm` selector (R32). -/
def Mm.code : Mm → BitVec 2
  | .bc => 0
  | .de => 1
  | .hlInc => 2
  | .hlDec => 3

/-- The code of a condition `cc` (R33). -/
def Cc.code : Cc → BitVec 2
  | .nz => 0
  | .z => 1
  | .nc => 2
  | .c => 3

/-- How a client presents an `rr` selector to the port (R35). -/
def Rr.toP16 : Rr → P16
  | .bc => .bc
  | .de => .de
  | .hl => .hl
  | .sp => .sp

/-- How a client presents a `qq` selector to the port (R35). -/
def Qq.toP16 : Qq → P16
  | .bc => .bc
  | .de => .de
  | .hl => .hl
  | .af => .af

/-- How a client presents an `mm` selector to the port (R35): (HL+) and (HL−) give HL, for the address; the block never
changes HL for them. -/
def Mm.toP16 : Mm → P16
  | .bc => .bc
  | .de => .de
  | .hlInc => .hl
  | .hlDec => .hl

/-! ### The fields of a transaction word (R37) -/

/-- OP, word bits 2:0. -/
def TxnWord.op (w : TxnWord) : BitVec 3 := w.extractLsb' 0 3

/-- SEL, word bits 5:3. -/
def TxnWord.sel (w : TxnWord) : BitVec 3 := w.extractLsb' 3 3

/-- V, word bit 6. -/
def TxnWord.v (w : TxnWord) : Bool := w.getLsbD 6

/-- DATA, word bits 23:8. -/
def TxnWord.data (w : TxnWord) : Word := w.extractLsb' 8 16

/-- The byte WRITE8 takes, DATA[7:0], word bits 15:8. -/
def TxnWord.byte (w : TxnWord) : Byte := w.extractLsb' 8 8

/-! ### The decoder (R38) -/

/-- Why the decoder refuses a word: it encodes no operation, and the word is recorded (R39, R53). -/
inductive DecodeReject where
  | reserved (w : TxnWord)
  deriving DecidableEq, Repr

/-- An operand that has a value gives the operation; a reserved one gives Reserved with the word (R39). -/
def operandOr (w : TxnWord) : Option Instr → Except DecodeReject Instr
  | some i => .ok i
  | none => .error (.reserved w)

/-- The block's decoder, total on 32-bit words (R38, in the rule's own order). -/
def decode (w : TxnWord) : Except DecodeReject Instr :=
  if w.extractLsb' 24 8 ≠ 0 ∨ w.getLsbD 7 = true then .error (.reserved w)
  else
    match w.op.toNat with
    | 0 => if w.extractLsb' 3 21 ≠ 0 then .error (.reserved w) else .ok .reset
    | 1 => if w.extractLsb' 6 18 ≠ 0 then .error (.reserved w) else .ok (.read8 (R8.ofCode w.sel))
    | 2 => if w.extractLsb' 16 8 ≠ 0 ∨ w.v = true then .error (.reserved w) else .ok (.write8 (R8.ofCode w.sel) w.byte)
    | 3 => if w.extractLsb' 6 18 ≠ 0 then .error (.reserved w) else operandOr w ((P16.ofCode? w.sel).map .read16)
    | 4 => if w.v = true then .error (.reserved w) else operandOr w ((P16.ofCode? w.sel).map (.write16 · w.data))
    | 5 => if w.extractLsb' 6 18 ≠ 0 then .error (.reserved w) else operandOr w ((Flag.ofCode? w.sel).map .flag)
    | 6 => if w.extractLsb' 8 16 ≠ 0 then .error (.reserved w) else operandOr w ((Flag.ofCode? w.sel).map (.setFlag · w.v))
    | _ => .error (.reserved w)

/-! ### The encoder (R37) -/

/-- The packing formula of R37: `DATA << 8 | V << 6 | SEL << 3 | OP`, each field zero-extended to 32 bits. -/
def packWord (data : Word) (v : Bool) (sel op : BitVec 3) : TxnWord :=
  data.setWidth 32 <<< 8 ||| (BitVec.ofBool v).setWidth 32 <<< 6 ||| sel.setWidth 32 <<< 3 ||| op.setWidth 32

/-- The transaction word of an operation (R37). -/
def encode : Instr → TxnWord
  | .reset => packWord 0 false 0 0
  | .read8 r => packWord 0 false r.code 1
  | .write8 r b => packWord (b.setWidth 16) false r.code 2
  | .read16 p => packWord 0 false p.code 3
  | .write16 p d => packWord d false p.code 4
  | .flag f => packWord 0 false f.code 5
  | .setFlag f b => packWord 0 b f.code 6

/-! ### The opcode table (spec/30_encoding.md section 4, spec/opcode_table.json) -/

/-- One row: a word `w` selects it when `w &&& mask = pattern`. -/
structure OpcodeRow where
  mnemonic : String
  pattern : TxnWord
  mask : TxnWord
  deriving DecidableEq, Repr

/-- The row of an operation, with the match and mask of the table. -/
def Instr.row : Instr → OpcodeRow
  | .reset => ⟨"RESET", 0x00000000, 0xFFFFFFFF⟩
  | .read8 _ => ⟨"READ8", 0x00000001, 0xFFFFFFC7⟩
  | .write8 _ _ => ⟨"WRITE8", 0x00000002, 0xFFFF00C7⟩
  | .read16 _ => ⟨"READ16", 0x00000003, 0xFFFFFFC7⟩
  | .write16 _ _ => ⟨"WRITE16", 0x00000004, 0xFF0000C7⟩
  | .flag _ => ⟨"FLAG", 0x00000025, 0xFFFFFFE7⟩
  | .setFlag _ _ => ⟨"SET_FLAG", 0x00000026, 0xFFFFFFA7⟩

/-- The seven rows of the opcode map, in its order. -/
def opcodeTable : List OpcodeRow :=
  [Instr.reset.row, (Instr.read8 .b).row, (Instr.write8 .b 0).row, (Instr.read16 .bc).row,
   (Instr.write16 .bc 0).row, (Instr.flag .c).row, (Instr.setFlag .c false).row]

/-- A word selects a row (30_encoding.md section 4). -/
def OpcodeRow.selects (r : OpcodeRow) (w : TxnWord) : Bool := w &&& r.mask == r.pattern

/-! ### The table's numbering of an instruction's bits -/

/-- The transaction word whose low `nbits` bits are those of `w` and whose other bits are 0: an operation is one
32-bit word, bit 0 its least significant (R7, R37; DESIGN CHOICE past 32 bits, log entry 12). -/
def tableWord (nbits w : Nat) : TxnWord := BitVec.ofNat 32 (w % 2 ^ nbits)

/-- What the decoder reads from an instruction whose bits are `w`, numbered as spec/opcode_table.json numbers them. -/
def decodeTableWord (nbits w : Nat) : Option Instr := (decode (tableWord nbits w)).toOption

end Sys2Proof
end

