-- ==== Sys2Proof/Config.lean ====
section
/-! DEFINITION. What the spec leaves open: the contents of the slots at power-on (spec/70_reset_and_hazards.md R64,
spec/92_eei_decisions.md D2). Every other parameter has the value R6 gives it. -/

namespace Sys2Proof

/-- FREE VALUE (log entry 6). What an 8-bit slot holds at power-on, before any write: "unknown" (R64). No body, so
nothing can be proved of it. -/
opaque Config.powerOnByte : Slot8 → Byte

/-- FREE VALUE (log entry 6). What a 16-bit slot holds at power-on: "unknown" (R64). -/
opaque Config.powerOnWord : Slot16 → Word

end Sys2Proof
end

