-- ==== Sys2Proof/Machine/State.lean ====
section
/-! DEFINITION. The state of the block as plain data (spec/10_state.md R10 to R18, section 6), the faults an operation
can end in (spec/60_exceptions.md R51), and the state after reset and at power-on (spec/70_reset_and_hazards.md R64, R65). -/

namespace Sys2Proof.Machine

/-- The three faults of an operation, with what each records (R51). They are values of the block's own state (`halted`)
and of its responses: a faulting operation takes a next state (R41, R57). -/
inductive FaultKind where
  /-- A word the decoder does not accept; records the word (R53). -/
  | reserved (w : TxnWord)
  /-- The `r8` value 6 given to READ8 or WRITE8; records the selector value (R54). -/
  | notARegister (sel : BitVec 3)
  /-- A read of a slot not written since power-on; records the slot (R55). -/
  | uninitialised (x : Slot)
  deriving DecidableEq, Repr

/-- What an operation responds with (R42). -/
inductive Response where
  | ack
  | byte (v : Byte)
  | word (v : Word)
  | bool (v : Bool)
  | fault (k : FaultKind)
  deriving DecidableEq, Repr

/-- The written bits W[s], one per slot (R18). -/
structure Written where
  a : Bool
  f : Bool
  b : Bool
  c : Bool
  d : Bool
  e : Bool
  h : Bool
  l : Bool
  sp : Bool
  pc : Bool
  deriving DecidableEq, Repr

/-- No slot written: the written bits at power-on (R64). -/
def Written.none : Written := ⟨false, false, false, false, false, false, false, false, false, false⟩

/-- Every slot written: the written bits after RESET (R43, R65). -/
def Written.all : Written := ⟨true, true, true, true, true, true, true, true, true, true⟩

/-- The state record of 10_state.md section 6, and the two ends of the block's port (log entries 1 and 2). -/
structure State where
  /-- A (R10). -/
  a : BitVec 8
  /-- F[7:4], the four stored bits of F: Z, N, H, C from the top. F[3:0] are hardwired to 0 and not stored (R14, R15). -/
  f : BitVec 4
  /-- B (R10). -/
  b : BitVec 8
  /-- C (R10). -/
  c : BitVec 8
  /-- D (R10). -/
  d : BitVec 8
  /-- E (R10). -/
  e : BitVec 8
  /-- H (R10). -/
  h : BitVec 8
  /-- L (R10). -/
  l : BitVec 8
  /-- SP (R11). -/
  sp : BitVec 16
  /-- PC (R11). -/
  pc : BitVec 16
  /-- W[s] (R18). -/
  written : Written
  /-- None, or the fault that stopped the block (R18, R57). -/
  halted : Option FaultKind
  /-- The MODEL's own field: the client's transactions not yet issued, oldest first (R4, R25; DESIGN CHOICE, log entry 1). -/
  requests : List (BitVec 32)
  /-- The MODEL's own field: what the last operation responded (R41, R42; DESIGN CHOICE, log entry 2). -/
  response : Option Response
  deriving DecidableEq, Repr

/-- Why the machine stops. -/
inductive Fault where
  /-- Raised by every operation and every step of a halted block, with the fault that halted it: "From then on the block
  takes no step for any transaction, RESET included" (R57; a stuck state, I4). Safe: the hardware takes no step either. -/
  | halted (k : FaultKind)
  deriving DecidableEq, Repr

/-- Why the model gives an instruction no meaning. -/
inductive Refusal where
  /-- Raised by an arm of `exec` whose instruction has no meaning yet; every instruction has its meaning, so no arm
  raises it. Safe: the model stops where the hardware goes on. -/
  | notModelled (mnemonic : String)
  deriving DecidableEq, Repr

/-- The block right after RESET (R65): every slot 0, every written bit 1, not halted. The port is empty: no transaction
waits and none has been answered (DESIGN CHOICE, log entry 5). -/
def State.reset : State :=
  { a := 0x00, f := 0x0, b := 0x00, c := 0x00, d := 0x00, e := 0x00, h := 0x00, l := 0x00
    sp := 0x0000, pc := 0x0000
    written := Written.all, halted := none, requests := [], response := none }

/-- The block at power-on (R64): every slot holds an unknown value, every written bit is 0, not halted. F[3:0] read 0
even then, so only F[7:4] are unknown. -/
def State.powerOn : State :=
  { a := Config.powerOnByte .a, f := (Config.powerOnByte .f).extractLsb' 4 4
    b := Config.powerOnByte .b, c := Config.powerOnByte .c, d := Config.powerOnByte .d, e := Config.powerOnByte .e
    h := Config.powerOnByte .h, l := Config.powerOnByte .l
    sp := Config.powerOnWord .sp, pc := Config.powerOnWord .pc
    written := Written.none, halted := none, requests := [], response := none }

end Sys2Proof.Machine
end

