-- ==== Sys2Proof/Machine/Flags.lean ====
section
/-! DEFINITION. The flags register F: its hardwired low nibble, reading one flag, setting or clearing one
(spec/10_state.md R14, R15; spec/41_flag_access.md R48, R49). The block computes no flag from a result (R50). -/

namespace Sys2Proof.Machine

/-- F as a client reads it whole: the four stored bits above the four hardwired zeros (R14, R15; DEDUCED, log entry 9). -/
def wholeF (stored : BitVec 4) : Byte := stored ++ 0#4

/-- `write_F(v)`: F[7:4] <- v[7:4]; v[3:0] is discarded (R15). -/
def storedF (v : Byte) : BitVec 4 := v.extractLsb' 4 4

/-- `((F >> pos(f)) & 1) == 1` (R48). -/
def flagOf (f : Flag) (v : Byte) : Bool := (v >>> f.pos) &&& 1 == 1

/-- `1 << pos(f)` as a u8 (R49). -/
def flagMask (f : Flag) : Byte := 1 <<< f.pos

/-- `F | mask` to set the flag, `F & ~mask` to clear it (R49). -/
def withFlag (f : Flag) (on : Bool) (v : Byte) : Byte := if on then v ||| flagMask f else v &&& ~~~flagMask f

end Sys2Proof.Machine
end

