-- ==== Sys2Proof/Machine/Ops.lean ====
section
/-! DEFINITION. The named operations over the slots and written bits (spec/00_scope.md R9), taking a fault, and the
frame every operation runs in (spec/40_register_access.md R41; spec/60_exceptions.md R56, R57). The block has no memory
(R19), so there is no operation over one. -/

namespace Sys2Proof.Machine

/-! ### The slots -/

/-- `R8[x]`: the value of an 8-bit slot (R9). F reads with its low nibble 0 (R15). -/
def State.readByte (x : Slot8) (s : State) : Byte :=
  match x with
  | .a => s.a
  | .f => wholeF s.f
  | .b => s.b
  | .c => s.c
  | .d => s.d
  | .e => s.e
  | .h => s.h
  | .l => s.l

/-- `R8[x] <- v` (R9). A write of F stores `v & 0xF0` (R15). -/
def State.storeByte (x : Slot8) (v : Byte) (s : State) : State :=
  match x with
  | .a => { s with a := v }
  | .f => { s with f := storedF v }
  | .b => { s with b := v }
  | .c => { s with c := v }
  | .d => { s with d := v }
  | .e => { s with e := v }
  | .h => { s with h := v }
  | .l => { s with l := v }

/-- `R16[x]`: the value of a 16-bit slot (R9). -/
def State.readWord (x : Slot16) (s : State) : Word :=
  match x with
  | .sp => s.sp
  | .pc => s.pc

/-- `R16[x] <- v` (R9). -/
def State.storeWord (x : Slot16) (v : Word) (s : State) : State :=
  match x with
  | .sp => { s with sp := v }
  | .pc => { s with pc := v }

/-! ### The written bits (R18) -/

/-- `W[x]`. -/
def Written.has (x : Slot) (w : Written) : Bool :=
  match x with
  | .byte .a => w.a
  | .byte .f => w.f
  | .byte .b => w.b
  | .byte .c => w.c
  | .byte .d => w.d
  | .byte .e => w.e
  | .byte .h => w.h
  | .byte .l => w.l
  | .word .sp => w.sp
  | .word .pc => w.pc

/-- `W[x] <- 1`. -/
def Written.mark (x : Slot) (w : Written) : Written :=
  match x with
  | .byte .a => { w with a := true }
  | .byte .f => { w with f := true }
  | .byte .b => { w with b := true }
  | .byte .c => { w with c := true }
  | .byte .d => { w with d := true }
  | .byte .e => { w with e := true }
  | .byte .h => { w with h := true }
  | .byte .l => { w with l := true }
  | .word .sp => { w with sp := true }
  | .word .pc => { w with pc := true }

/-- The slot has been written since power-on (R18). -/
def State.isWritten (x : Slot) (s : State) : Bool := s.written.has x

/-- Set a slot's written bit (R18). -/
def State.mark (x : Slot) (s : State) : State := { s with written := s.written.mark x }

/-- Write an 8-bit slot and its written bit, as every write of one does (R45, R47, R49). -/
def State.writeByte (x : Slot8) (v : Byte) (s : State) : State := (s.storeByte x v).mark (.byte x)

/-- Write a 16-bit slot and its written bit (R47). -/
def State.writeWord (x : Slot16) (v : Word) (s : State) : State := (s.storeWord x v).mark (.word x)

/-- Every slot to zero and every written bit to 1, F through its masked write (R43). -/
def State.zeroSlots (s : State) : State :=
  { s with
    a := 0x00, f := storedF 0x00, b := 0x00, c := 0x00, d := 0x00, e := 0x00, h := 0x00, l := 0x00
    sp := 0x0000, pc := 0x0000, written := Written.all }

/-- Read an 8-bit slot, or fault Uninitialised where nothing has written it since power-on (R55). -/
def State.fetchByte (x : Slot8) (s : State) : Except FaultKind Byte :=
  if s.isWritten (.byte x) then .ok (s.readByte x) else .error (.uninitialised (.byte x))

/-- Read a 16-bit slot, or fault Uninitialised (R55). -/
def State.fetchWord (x : Slot16) (s : State) : Except FaultKind Word :=
  if s.isWritten (.word x) then .ok (s.readWord x) else .error (.uninitialised (.word x))

/-! ### Responding, faulting, and the frame of an operation -/

/-- `respond(r)`: the operation ends with a response (R9, R42). -/
def State.respond (r : Response) (s : State) : State := { s with response := some r }

/-- `raise k`: TAKING A FAULT. No slot and no written bit changes; `halted` becomes the fault and the client gets it as
the response (R41, R57). -/
def State.raise (k : FaultKind) (s : State) : State := { s with halted := some k, response := some (.fault k) }

/-- What an operation's rule ends in: a fault, or a response and the state with every write of the rule (R41). -/
abbrev RuleResult := Except FaultKind (Response × State)

/-- Commit a rule's result: the fault taken from the state before the operation, or all its writes together (R41). -/
def commit (s : State) : RuleResult → State
  | .error k => s.raise k
  | .ok (r, t) => t.respond r

/-- The frame of one operation (R41): a halted block takes no step (R57; a stuck state, log entries 4 and 10), otherwise
the rule's result is committed, a fault too being a next state (DEDUCED, log entry 4). -/
def transact (s : State) (result : RuleResult) : Host.Outcome State Fault Refusal :=
  match s.halted with
  | some k => .fault (.halted k)
  | none => .next (commit s result)

/-- The client has issued nothing: the block keeps its state, and a halted block takes no step (DESIGN CHOICE, log
entry 3). -/
def idle (s : State) : Host.Outcome State Fault Refusal :=
  match s.halted with
  | some k => .fault (.halted k)
  | none => .next s

end Sys2Proof.Machine
end

