-- ==== Sys2Proof/Machine/Operands.lean ====
section
/-! DEFINITION. What the operand selectors reach: `slot8`, `halves` and the two forms of a `p16` operand
(spec/40_register_access.md section 1; spec/10_state.md R12, R16), and which slots each operation reads and writes
(R16, R55). -/

namespace Sys2Proof.Machine

/-- `slot8(r)`: the slot an 8-bit selector names; `(HL)` has none (R29, R42). -/
def slot8? : R8 → Option Slot8
  | .b => some .b
  | .c => some .c
  | .d => some .d
  | .e => some .e
  | .h => some .h
  | .l => some .l
  | .hlMem => none
  | .a => some .a

/-- What a `p16` operand names: a pair view over two 8-bit slots, or a 16-bit slot (R11, R12, R34). -/
inductive PortTarget where
  | pair (hi lo : Slot8)
  | slot (x : Slot16)
  deriving DecidableEq, Repr

/-- `halves(p16)` for the pairs, high byte first-named (R12), and the slot itself for SP and PC. -/
def portTarget : P16 → PortTarget
  | .bc => .pair .b .c
  | .de => .pair .d .e
  | .hl => .pair .h .l
  | .af => .pair .a .f
  | .sp => .slot .sp
  | .pc => .slot .pc

/-- `(high << 8) | low` (R8, R12). -/
def compose (hi lo : Byte) : Word := hi.setWidth 16 <<< 8 ||| lo.setWidth 16

/-- `word >> 8`, as a byte (R21). -/
def highByte (w : Word) : Byte := (w >>> 8).setWidth 8

/-- `word & 0xFF`, as a byte (R21). -/
def lowByte (w : Word) : Byte := (w &&& 0xFF).setWidth 8

/-- Resolve an `r8` operand, or fault NotARegister on `(HL)`, recording the selector value (R54). -/
def register (r : R8) : Except FaultKind Slot8 :=
  match slot8? r with
  | some x => .ok x
  | none => .error (.notARegister r.code)

/-- Read a `p16` operand: both halves of a pair, the high one first, or the 16-bit slot (R46, R55). -/
def fetchPort (p : P16) (s : State) : Except FaultKind Word :=
  match portTarget p with
  | .pair hi lo =>
    match s.fetchByte hi with
    | .error k => .error k
    | .ok h =>
      match s.fetchByte lo with
      | .error k => .error k
      | .ok l => .ok (compose h l)
  | .slot x => s.fetchWord x

/-- Write a `p16` operand: both halves of a pair in one step, or the 16-bit slot (R47). -/
def writePort (p : P16) (w : Word) (s : State) : State :=
  match portTarget p with
  | .pair hi lo => (s.writeByte hi (highByte w)).writeByte lo (lowByte w)
  | .slot x => s.writeWord x w

/-- The slots a `p16` operand covers, the high half first (R12, R55). -/
def portSlots (p : P16) : List Slot :=
  match portTarget p with
  | .pair hi lo => [.byte hi, .byte lo]
  | .slot x => [.word x]

/-- The slots an `r8` operand covers: one, or none for `(HL)` (R16, R29). -/
def registerSlots (r : R8) : List Slot :=
  match slot8? r with
  | some x => [.byte x]
  | none => []

/-- All ten slots, in the order of R18. -/
def allSlots : List Slot :=
  [.byte .a, .byte .f, .byte .b, .byte .c, .byte .d, .byte .e, .byte .h, .byte .l, .word .sp, .word .pc]

/-- The slots an operation reads, in the order it checks them: the `r` cells of R16 with the order of R55. -/
def readSlots : Instr → List Slot
  | .reset => []
  | .read8 r => registerSlots r
  | .write8 _ _ => []
  | .read16 p => portSlots p
  | .write16 _ _ => []
  | .flag _ => [.byte .f]
  | .setFlag _ _ => [.byte .f]

/-- The slots an operation writes: the `w` cells of R16. -/
def writeSlots : Instr → List Slot
  | .reset => allSlots
  | .read8 _ => []
  | .write8 r _ => registerSlots r
  | .read16 _ => []
  | .write16 p _ => portSlots p
  | .flag _ => []
  | .setFlag _ _ => [.byte .f]

end Sys2Proof.Machine
end

