-- ==== Sys2Proof/Machine/FlagAccess.lean ====
section
/-! DEFINITION. The flag access operations: FLAG and SET_FLAG (spec/41_flag_access.md R48, R49). -/

namespace Sys2Proof.Machine

/-- FLAG f (R48). -/
def execFlag (f : Flag) (s : State) : Host.Outcome State Fault Refusal :=
  transact s <|
    match s.fetchByte .f with
    | .error k => .error k
    | .ok v => .ok (.bool (flagOf f v), s)

/-- SET_FLAG f, on (R49): a read-modify-write of F, so F must have been written. -/
def execSetFlag (f : Flag) (on : Bool) (s : State) : Host.Outcome State Fault Refusal :=
  transact s <|
    match s.fetchByte .f with
    | .error k => .error k
    | .ok v => .ok (.ack, s.writeByte .f (withFlag f on v))

end Sys2Proof.Machine
end

