-- ==== Sys2Proof/Machine/RegisterAccess.lean ====
section
/-! DEFINITION. The register access operations: RESET, READ8, WRITE8, READ16, WRITE16
(spec/40_register_access.md R43 to R47). Each meaning runs its rule in the frame of R41. -/

namespace Sys2Proof.Machine

/-- RESET (R43): every slot to zero. -/
def execReset (s : State) : Host.Outcome State Fault Refusal :=
  transact s (.ok (.ack, s.zeroSlots))

/-- READ8 r (R44). -/
def execRead8 (r : R8) (s : State) : Host.Outcome State Fault Refusal :=
  transact s <|
    match register r with
    | .error k => .error k
    | .ok x =>
      match s.fetchByte x with
      | .error k => .error k
      | .ok v => .ok (.byte v, s)

/-- WRITE8 r, v (R45). -/
def execWrite8 (r : R8) (v : Byte) (s : State) : Host.Outcome State Fault Refusal :=
  transact s <|
    match register r with
    | .error k => .error k
    | .ok x => .ok (.ack, s.writeByte x v)

/-- READ16 p (R46). -/
def execRead16 (p : P16) (s : State) : Host.Outcome State Fault Refusal :=
  transact s <|
    match fetchPort p s with
    | .error k => .error k
    | .ok v => .ok (.word v, s)

/-- WRITE16 p, w (R47). -/
def execWrite16 (p : P16) (w : Word) (s : State) : Host.Outcome State Fault Refusal :=
  transact s (.ok (.ack, writePort p w s))

end Sys2Proof.Machine
end

