-- ==== Sys2Proof/Machine/Dispatch.lean ====
section
/-! DEFINITION. The meaning of each operation, one arm per constructor of Instr (spec/opcode_table.json). -/

namespace Sys2Proof.Machine

/-- The meaning of an operation. -/
def exec (i : Instr) (s : State) : Host.Outcome State Fault Refusal :=
  match i with
  | .reset => Sys2Proof.Machine.execReset s
  | .read8 r => Sys2Proof.Machine.execRead8 r s
  | .write8 r v => Sys2Proof.Machine.execWrite8 r v s
  | .read16 p => Sys2Proof.Machine.execRead16 p s
  | .write16 p w => Sys2Proof.Machine.execWrite16 p w s
  | .flag f => Sys2Proof.Machine.execFlag f s
  | .setFlag f on => Sys2Proof.Machine.execSetFlag f on s

end Sys2Proof.Machine
end

