-- ==== Sys2Proof/Machine/Transaction.lean ====
section
/-! DEFINITION. One transaction: decode the word, then run the operation or raise Reserved
(spec/40_register_access.md R41; spec/60_exceptions.md R53, R56), and how a transaction comes to the port. -/

namespace Sys2Proof.Machine

/-- The fault a refused word raises (R53). -/
def rejectFault : DecodeReject → FaultKind
  | .reserved w => .reserved w

/-- Run one transaction word (R41). A halted block takes no step whatever the word (R56). -/
def runTransaction (w : TxnWord) (s : State) : Host.Outcome State Fault Refusal :=
  match decode w with
  | .ok i => exec i s
  | .error e => transact s (.error (rejectFault e))

/-- The client's oldest waiting transaction is issued, and leaves the queue (log entry 1). -/
def stepPort (s : State) : Host.Outcome State Fault Refusal :=
  match s.requests with
  | [] => idle s
  | w :: rest => runTransaction w { s with requests := rest }

/-- Put a word at the head of the client's queue, where the next step takes its transaction (log entry 5). -/
def State.present (w : TxnWord) (s : State) : State := { s with requests := w :: s.requests }

end Sys2Proof.Machine
end

