-- ==== Sys2Proof/Machine/Step.lean ====
section
/-! DEFINITION. One step of the machine: one transaction of the client (spec/00_scope.md R5,
spec/40_register_access.md R41). -/

namespace Sys2Proof.Machine

/-- One step (R5, R41). -/
def step (s : State) : Host.Outcome State Fault Refusal := stepPort s

/-- `s` with the instruction whose bits are `w` (numbered as spec/opcode_table.json numbers them) where `step` takes its
next transaction. -/
def State.withFetchWord (s : State) (nbits w : Nat) : State := s.present (tableWord nbits w)

end Sys2Proof.Machine
end

