-- ==== Sys2Proof/Machine/Assembler.lean ====
section
/-! DEFINITION. The text form of transactions (spec/30_encoding.md R40): writing an operation as text, and reading a line
of text back. The block never sees text; the client's tools turn a line into an operation and so into a word. -/

namespace Sys2Proof

/-! ### Names and immediates -/

/-- The name of an 8-bit selector (R40). -/
def R8.name : R8 → List Char
  | .b => ['B']
  | .c => ['C']
  | .d => ['D']
  | .e => ['E']
  | .h => ['H']
  | .l => ['L']
  | .hlMem => ['(', 'H', 'L', ')']
  | .a => ['A']

/-- The name of a 16-bit port selector (R40). -/
def P16.name : P16 → List Char
  | .bc => ['B', 'C']
  | .de => ['D', 'E']
  | .hl => ['H', 'L']
  | .sp => ['S', 'P']
  | .af => ['A', 'F']
  | .pc => ['P', 'C']

/-- The name of a flag (R40). -/
def Flag.name : Flag → List Char
  | .c => ['C']
  | .h => ['H']
  | .n => ['N']
  | .z => ['Z']

/-- Read an 8-bit selector's name (R40). -/
def R8.ofName? (t : List Char) : Option R8 :=
  [R8.b, .c, .d, .e, .h, .l, .hlMem, .a].find? (·.name == t)

/-- Read a port selector's name (R40). -/
def P16.ofName? (t : List Char) : Option P16 :=
  [P16.bc, .de, .hl, .sp, .af, .pc].find? (·.name == t)

/-- Read a flag's name (R40). -/
def Flag.ofName? (t : List Char) : Option Flag :=
  [Flag.z, .n, .h, .c].find? (·.name == t)

/-- The value of a decimal digit. -/
def decDigit? (c : Char) : Option Nat :=
  if 48 ≤ c.toNat ∧ c.toNat ≤ 57 then some (c.toNat - 48) else none

/-- The value of a hexadecimal digit, in capitals or small letters (log entry 7). -/
def hexDigit? (c : Char) : Option Nat :=
  if 48 ≤ c.toNat ∧ c.toNat ≤ 57 then some (c.toNat - 48)
  else if 65 ≤ c.toNat ∧ c.toNat ≤ 70 then some (c.toNat - 55)
  else if 97 ≤ c.toNat ∧ c.toNat ≤ 102 then some (c.toNat - 87)
  else none

/-- Read digits of a base, most significant first, on top of `acc`. -/
def digitsFrom (base : Nat) (digit? : Char → Option Nat) : Nat → List Char → Option Nat
  | acc, [] => some acc
  | acc, c :: cs =>
    match digit? c with
    | none => none
    | some d => digitsFrom base digit? (acc * base + d) cs

/-- "Immediates are hexadecimal (`0x..`) or decimal" (R40). -/
def number? : List Char → Option Nat
  | '0' :: 'x' :: c :: cs => digitsFrom 16 hexDigit? 0 (c :: cs)
  | c :: cs => digitsFrom 10 decDigit? 0 (c :: cs)
  | [] => none

/-- "An immediate that does not fit its field is an assembly error, not a wrap" (R40). -/
def immediate? (width : Nat) (t : List Char) : Option (BitVec width) :=
  match number? t with
  | none => none
  | some n => if n < 2 ^ width then some (BitVec.ofNat width n) else none

/-- The value SET_FLAG's text gives: `0` or `1` (R40). -/
def setting? (t : List Char) : Option Bool :=
  if t = ['0'] then some false else if t = ['1'] then some true else none

/-! ### Reading a line -/

/-- Put a token gathered so far before the tokens that follow, if there is one. -/
def putToken (cur : List Char) (rest : List (List Char)) : List (List Char) :=
  if cur = [] then rest else cur :: rest

/-- The tokens of a line: words between spaces, and each comma by itself (DESIGN CHOICE, log entry 7). -/
def tokensFrom (cur : List Char) : List Char → List (List Char)
  | [] => putToken cur []
  | c :: cs =>
    if c = ' ' then putToken cur (tokensFrom [] cs)
    else if c = ',' then putToken cur ([','] :: tokensFrom [] cs)
    else tokensFrom (cur ++ [c]) cs

/-! ### Reading a line: the first word of each form -/

/-- `reset` (R40). -/
def wordReset : List Char := ['r', 'e', 's', 'e', 't']

/-- `read8` (R40). -/
def wordRead8 : List Char := ['r', 'e', 'a', 'd', '8']

/-- `write8` (R40). -/
def wordWrite8 : List Char := ['w', 'r', 'i', 't', 'e', '8']

/-- `read16` (R40). -/
def wordRead16 : List Char := ['r', 'e', 'a', 'd', '1', '6']

/-- `write16` (R40). -/
def wordWrite16 : List Char := ['w', 'r', 'i', 't', 'e', '1', '6']

/-- `flag` (R40). -/
def wordFlag : List Char := ['f', 'l', 'a', 'g']

/-- `set_flag` (R40). -/
def wordSetFlag : List Char := ['s', 'e', 't', '_', 'f', 'l', 'a', 'g']

/-- The operation of a line's tokens (R40); `none` is an assembly error. -/
def ofTokens? : List (List Char) → Option Instr
  | [m] => if m = wordReset then some .reset else none
  | [m, x] =>
    if m = wordRead8 then (R8.ofName? x).map .read8
    else if m = wordRead16 then (P16.ofName? x).map .read16
    else if m = wordFlag then (Flag.ofName? x).map .flag
    else none
  | [m, x, comma, y] =>
    if comma ≠ [','] then none
    else if m = wordWrite8 then
      match R8.ofName? x, immediate? 8 y with
      | some r, some v => some (.write8 r v)
      | _, _ => none
    else if m = wordWrite16 then
      match P16.ofName? x, immediate? 16 y with
      | some p, some w => some (.write16 p w)
      | _, _ => none
    else if m = wordSetFlag then
      match Flag.ofName? x, setting? y with
      | some f, some v => some (.setFlag f v)
      | _, _ => none
    else none
  | _ => none

/-- Assemble one line (R40). -/
def assembleChars (line : List Char) : Option Instr := ofTokens? (tokensFrom [] line)

/-- Assemble one line (R40). -/
def assemble (line : String) : Option Instr := assembleChars line.toList

/-! ### Writing a line -/

/-- One hexadecimal digit, in capitals as the spec writes them. -/
def hexChar (d : BitVec 4) : Char :=
  Char.ofNat (if d.toNat < 10 then 48 + d.toNat else 55 + d.toNat)

/-- A byte as the spec writes it, `0x` and two digits. -/
def byteChars (v : Byte) : List Char := ['0', 'x', hexChar (v.extractLsb' 4 4), hexChar (v.extractLsb' 0 4)]

/-- A word as the spec writes it, `0x` and four digits. -/
def wordChars (w : Word) : List Char :=
  ['0', 'x', hexChar (w.extractLsb' 12 4), hexChar (w.extractLsb' 8 4), hexChar (w.extractLsb' 4 4),
    hexChar (w.extractLsb' 0 4)]

/-- An operation in the text form of R40. -/
def Instr.chars : Instr → List Char
  | .reset => wordReset
  | .read8 r => wordRead8 ++ ' ' :: r.name
  | .write8 r v => wordWrite8 ++ ' ' :: r.name ++ ',' :: ' ' :: byteChars v
  | .read16 p => wordRead16 ++ ' ' :: p.name
  | .write16 p w => wordWrite16 ++ ' ' :: p.name ++ ',' :: ' ' :: wordChars w
  | .flag f => wordFlag ++ ' ' :: f.name
  | .setFlag f v => wordSetFlag ++ ' ' :: f.name ++ ',' :: ' ' :: [if v then '1' else '0']

end Sys2Proof
end

