-- ==== Sys2Proof/Safety.lean ====
section
/-! DEFINITION. The terms claims are made in: a normal end, power-on, a fully written block, an agreeing port, what two
states share of a slot, and which words are reserved and which fault an operation runs into, written from the rules'
own words rather than from the decoder and the meanings. -/

namespace Sys2Proof.Machine

/-- A run has ended normally: the client has no more transactions and the block is not halted. "A halted block has no
normal end" (spec/70_reset_and_hazards.md R67; spec/60_exceptions.md R57). -/
abbrev NormalEnd (s : State) : Prop := s.requests = [] ∧ s.halted = none

/-- `n` steps, stopping at the first fault or refusal: the host's `Core.run` at the model's own types. -/
def runSteps : Nat → State → Host.Outcome State Fault Refusal
  | 0, s => .next s
  | n + 1, s =>
    match step s with
    | .next t => runSteps n t
    | .fault r => .fault r
    | .refused r => .refused r

/-- Any block at power-on: no slot written, not halted, WHATEVER the slots hold (R64). -/
abbrev AtPowerOn (s : State) : Prop := s.written = Written.none ∧ s.halted = none

/-- Every slot has been written since power-on (R52, R66). -/
abbrev AllWritten (s : State) : Prop := ∀ x : Slot, s.isWritten x = true

/-- The client's view and the block's agree: the last response is a fault exactly when the block is halted, and then it
is the fault the block is halted by (R41, R57). -/
abbrev PortAgrees (s : State) : Prop := ∀ k : FaultKind, s.halted = some k ↔ s.response = some (.fault k)

/-- The value of any slot, an 8-bit one zero-extended. -/
def State.slotValue (x : Slot) (s : State) : Word :=
  match x with
  | .byte y => (s.readByte y).setWidth 16
  | .word y => s.readWord y

/-- Two states hold the same in a slot: its value and its written bit. -/
abbrev SameSlot (x : Slot) (s t : State) : Prop := s.slotValue x = t.slotValue x ∧ s.isWritten x = t.isWritten x

/-- The bits of a transaction word that "must be 0", by OP (R37); OP 7 is reserved whole. -/
def mustBeZero (op : BitVec 3) : TxnWord :=
  match op.toNat with
  | 0 => 0xFFFFFFF8
  | 1 => 0xFFFFFFC0
  | 2 => 0xFFFF00C0
  | 3 => 0xFFFFFFC0
  | 4 => 0xFF0000C0
  | 5 => 0xFFFFFFC0
  | 6 => 0xFFFFFF80
  | _ => 0xFFFFFFFF

/-- R53's list: a reserved OP (7), a non-zero must-be-zero bit, a `p16` SEL of 6 or 7 on READ16 or WRITE16, or an
`fsel` SEL of 0 to 3 on FLAG or SET_FLAG. -/
abbrev ReservedWord (w : TxnWord) : Prop :=
  w.op = 7 ∨ w &&& mustBeZero w.op ≠ 0 ∨ ((w.op = 3 ∨ w.op = 4) ∧ 6 ≤ w.sel.toNat) ∨
    ((w.op = 5 ∨ w.op = 6) ∧ w.sel.toNat ≤ 3)

/-- The fault an operation runs into in a state that is not halted, in the order of R56: `(HL)` before any slot is read
(R54), then the first unwritten slot of those it reads, in the order it reads them (R55). -/
def faultOf (i : Instr) (s : State) : Option FaultKind :=
  if i.wellFormed then ((readSlots i).find? (fun x => !s.isWritten x)).map .uninitialised
  else some (.notARegister 6)

/-- The `r8` codes that name a slot, with the slot (R16, R29). -/
def registerTable : List (R8 × Slot8) :=
  [(.b, .b), (.c, .c), (.d, .d), (.e, .e), (.h, .h), (.l, .l), (.a, .a)]

/-- The pair views with their high and low halves (R12). -/
def pairTable : List (P16 × Slot8 × Slot8) :=
  [(.af, .a, .f), (.bc, .b, .c), (.de, .d, .e), (.hl, .h, .l)]

/-- The 16-bit slots a `p16` code names (R11, R34). -/
def wordTable : List (P16 × Slot16) := [(.sp, .sp), (.pc, .pc)]

/-- The flags with their bit positions in F (R14). -/
def flagTable : List (Flag × Nat) := [(.z, 7), (.n, 6), (.h, 5), (.c, 4)]

/-- The word a pair or slot keeps of a written word: AF loses bits 3..0 (R47). -/
def keptWord (p : P16) (w : Word) : Word := if p = .af then w &&& 0xFFF0 else w

end Sys2Proof.Machine
end

