-- ==== Sys2Proof/Certificates/Slice0/Obligations.lean ====
section
/-! DEFINITION. The statements for the provers, from the numbered rules of spec/. -/

open Sys2Proof Sys2Proof.Machine

/-! ### Encoding -/

/-- Words written out bit by bit from the layout of R37 decode to the operation they stand for (95_test_vectors.md
sections 2.1 to 2.5). A sanity statement. -/
def Obligations.WrittenOutWordsDecode : Prop :=
  decodeTableWord 32 0x00000000 = some .reset ∧ decodeTableWord 32 0x00000039 = some (.read8 .a) ∧
  decodeTableWord 32 0x00000031 = some (.read8 .hlMem) ∧ decodeTableWord 32 0x0000CD2A = some (.write8 .l 0xCD) ∧
  decodeTableWord 32 0x00000023 = some (.read16 .af) ∧ decodeTableWord 32 0x00BEEF0C = some (.write16 .de 0xBEEF) ∧
  decodeTableWord 32 0x0000003D = some (.flag .z) ∧ decodeTableWord 32 0x00000036 = some (.setFlag .n false) ∧
  decodeTableWord 32 0x00000066 = some (.setFlag .c true) ∧ decodeTableWord 32 0x00000007 = none ∧
  decodeTableWord 32 0x00000033 = none ∧ decodeTableWord 32 0x0000005E = none

/-- The numeric codes of the selectors (30_encoding.md sections 1 and 2): r8, rr, qq, mm and cc as the source fixes them, and,
by the spec's own decisions D4 and D6, the codes of `p16` and `fsel` and where a client's pair selectors go in `p16`. -/
def Obligations.SelectorCodesAsTabled : Prop :=
  ([R8.b, .c, .d, .e, .h, .l, .hlMem, .a].map R8.code = [0, 1, 2, 3, 4, 5, 6, 7] ∧
    [0, 1, 2, 3, 4, 5, 6, 7].map R8.ofCode = [R8.b, .c, .d, .e, .h, .l, .hlMem, .a]) ∧
  [Rr.bc, .de, .hl, .sp].map Rr.code = [0, 1, 2, 3] ∧ [Qq.bc, .de, .hl, .af].map Qq.code = [0, 1, 2, 3] ∧
  [Mm.bc, .de, .hlInc, .hlDec].map Mm.code = [0, 1, 2, 3] ∧ [Cc.nz, .z, .nc, .c].map Cc.code = [0, 1, 2, 3] ∧
  ([P16.bc, .de, .hl, .sp, .af, .pc].map P16.code = [0, 1, 2, 3, 4, 5] ∧
    [0, 1, 2, 3, 4, 5, 6, 7].map P16.ofCode? =
      [some P16.bc, some .de, some .hl, some .sp, some .af, some .pc, none, none]) ∧
  ([Flag.c, .h, .n, .z].map Flag.code = [4, 5, 6, 7] ∧
    [0, 1, 2, 3, 4, 5, 6, 7].map Flag.ofCode? = [none, none, none, none, some Flag.c, some .h, some .n, some .z]) ∧
  [Rr.bc, .de, .hl, .sp].map (fun r => r.toP16.code) = [0, 1, 2, 3] ∧
  [Qq.bc, .de, .hl, .af].map (fun q => q.toP16.code) = [0, 1, 2, 4] ∧
  [Mm.bc, .de, .hlInc, .hlDec].map (fun m => m.toP16.code) = [0, 1, 2, 2]

/-- Decoding the word of an operation gives the operation back, with every operand at every value (R37, R38). -/
def Obligations.DecodeOfEncode : Prop := ∀ i : Instr, decode (encode i) = .ok i

/-- A word the decoder accepts is the word of the operation it gives: every operation has one word (R37, R38). -/
def Obligations.EncodeOfDecode : Prop := ∀ (w : TxnWord) (i : Instr), decode w = .ok i → encode i = w

/-- Every field of the packing formula is read back whole from where R37 puts it, and bits 7 and 31:24 are 0. -/
def Obligations.PackedFieldsReadBack : Prop :=
  ∀ (data : Word) (v : Bool) (sel op : BitVec 3),
    (packWord data v sel op).extractLsb' 0 3 = op ∧ (packWord data v sel op).extractLsb' 3 3 = sel ∧
    (packWord data v sel op).getLsbD 6 = v ∧ (packWord data v sel op).getLsbD 7 = false ∧
    (packWord data v sel op).extractLsb' 8 16 = data ∧ (packWord data v sel op).extractLsb' 24 8 = 0

/-- R53 (the spec's decision D7): the decoder raises Reserved, recording the word, on exactly the words R53 lists. It is
a function of the word alone, so no state is read. -/
def Obligations.ReservedWordsAreExactlyTheRejected : Prop :=
  ∀ w : TxnWord, (ReservedWord w → decode w = .error (.reserved w)) ∧ (¬ReservedWord w → ∃ i, decode w = .ok i)

/-- The opcode map of 30_encoding.md section 4: the seven rows with their match and mask, a decoded word selects the row
of its operation and no other row, and a word that selects no row is Reserved. -/
def Obligations.OpcodeRowsClassifyWords : Prop :=
  opcodeTable = [⟨"RESET", 0x00000000, 0xFFFFFFFF⟩, ⟨"READ8", 0x00000001, 0xFFFFFFC7⟩, ⟨"WRITE8", 0x00000002, 0xFFFF00C7⟩,
    ⟨"READ16", 0x00000003, 0xFFFFFFC7⟩, ⟨"WRITE16", 0x00000004, 0xFF0000C7⟩, ⟨"FLAG", 0x00000025, 0xFFFFFFE7⟩,
    ⟨"SET_FLAG", 0x00000026, 0xFFFFFFA7⟩] ∧
  ∀ w : TxnWord,
    (∀ i, decode w = .ok i → i.row ∈ opcodeTable ∧ ∀ r ∈ opcodeTable, (r.selects w = true ↔ r = i.row)) ∧
    ((∀ r ∈ opcodeTable, r.selects w = false) → decode w = .error (.reserved w))

/-- The text form of R40 round-trips: every operation, written as text, assembles to itself. -/
def Obligations.AssembledTextRoundTrips : Prop := ∀ i : Instr, assembleChars i.chars = some i

/-- R40: "An immediate that does not fit its field is an assembly error, not a wrap", for WRITE8 and WRITE16, whatever the
register and however the number is written. -/
def Obligations.OversizeImmediateIsAssemblyError : Prop :=
  ∀ (t : List Char) (n : Nat), number? t = some n →
    (256 ≤ n → ∀ x, ofTokens? [wordWrite8, x, [','], t] = none) ∧
    (65536 ≤ n → ∀ x, ofTokens? [wordWrite16, x, [','], t] = none)

/-! ### The step -/

/-- A step runs the decoded operation: where the client's oldest word decodes, the step is the operation's meaning on the
state in which that word has left the queue; running it adds nothing to the queue. The queue is the model's (log
entry 1). -/
def Obligations.StepRunsDecodedOperation : Prop :=
  ∀ (s : State) (w : TxnWord) (rest : List TxnWord) (i : Instr), s.requests = w :: rest → decode w = .ok i →
    step s = exec i { s with requests := rest } ∧ ∀ t, step s = .next t → t.requests = rest

/-- The model's choice (log entry 3): while the client issues nothing, a step of a block that is not halted changes
nothing; a halted block takes no step. -/
def Obligations.EmptyPortChangesNothing : Prop :=
  ∀ s : State, s.requests = [] →
    (s.halted = none → step s = .next s) ∧ (∀ k, s.halted = some k → step s = .fault (.halted k))

/-- R41 whole (the interface is the spec's decision D1): a halted block takes no step; a Reserved word changes only
`halted` and the response (and leaves the queue); otherwise the operation's rule runs, and either it raises a fault, and
only `halted` and the response change, or it completes with a response and the block stays unhalted. Every operation
finishes in one step. -/
def Obligations.StepFrame : Prop :=
  (∀ (s : State) (w : TxnWord) (rest : List TxnWord), s.requests = w :: rest →
    (∀ k, s.halted = some k → step s = .fault (.halted k)) ∧
    (s.halted = none → ReservedWord w →
      step s = .next { s with requests := rest, halted := some (.reserved w), response := some (.fault (.reserved w)) }) ∧
    (s.halted = none → ¬ReservedWord w → ∃ i, decode w = .ok i ∧ step s = exec i { s with requests := rest })) ∧
  (∀ (i : Instr) (s : State),
    (∀ k, s.halted = some k → exec i s = .fault (.halted k)) ∧
    (s.halted = none →
      (∃ k, exec i s = .next { s with halted := some k, response := some (.fault k) }) ∨
      (∃ t r, exec i s = .next t ∧ t.halted = none ∧ t.response = some r ∧ ∀ k, r ≠ .fault k)))

/-- R57 whole (the spec's decision D8): a step that leaves the block halted has changed no slot and no written bit, and
responds with the fault it halts by; a halted block takes no step for any transaction, RESET included; and its state is
no normal end. -/
def Obligations.FaultHaltsTheBlockForGood : Prop :=
  ∀ (s t : State) (k : FaultKind), step s = .next t → t.halted = some k →
    t = { s with requests := s.requests.tail, halted := some k, response := some (.fault k) } ∧
    (∀ requests : List TxnWord, step { t with requests := requests } = .fault (.halted k)) ∧
    (∀ i, exec i t = .fault (.halted k)) ∧ ¬NormalEnd t

/-- R42 (the spec's decision D1): `ack` for RESET, WRITE8, WRITE16 and SET_FLAG; a u8 for READ8; a u16 for READ16; a bool
for FLAG; or the fault. -/
def Obligations.ResponsesHaveTheirKind : Prop :=
  ∀ (i : Instr) (s t : State), exec i s = .next t →
    (∃ k, t.halted = some k ∧ t.response = some (.fault k)) ∨
    (t.halted = none ∧
      match i with
      | .reset | .write8 _ _ | .write16 _ _ | .setFlag _ _ => t.response = some .ack
      | .read8 _ => ∃ v, t.response = some (.byte v)
      | .read16 _ => ∃ v, t.response = some (.word v)
      | .flag _ => ∃ v, t.response = some (.bool v))

/-! ### What each operation does -/

/-- Each slot and each written bit is a field of its own, and F reads as its four stored bits above four zeros (R10, R11,
R14, R18): what `readByte`, `readWord` and `isWritten` mean in the statements below. A sanity statement. -/
def Obligations.SlotsReadTheirOwnFields : Prop :=
  ∀ s : State,
    (s.readByte .a = s.a ∧ s.readByte .b = s.b ∧ s.readByte .c = s.c ∧ s.readByte .d = s.d ∧ s.readByte .e = s.e ∧
      s.readByte .h = s.h ∧ s.readByte .l = s.l ∧ s.readByte .f = s.f ++ 0#4 ∧ s.readWord .sp = s.sp ∧
      s.readWord .pc = s.pc) ∧
    (s.isWritten (.byte .a) = s.written.a ∧ s.isWritten (.byte .f) = s.written.f ∧ s.isWritten (.byte .b) = s.written.b ∧
      s.isWritten (.byte .c) = s.written.c ∧ s.isWritten (.byte .d) = s.written.d ∧
      s.isWritten (.byte .e) = s.written.e ∧ s.isWritten (.byte .h) = s.written.h ∧
      s.isWritten (.byte .l) = s.written.l ∧ s.isWritten (.word .sp) = s.written.sp ∧
      s.isWritten (.word .pc) = s.written.pc)

/-- R43 whole: the only word of RESET is 0; RESET zeroes every slot and sets every written bit, whatever they were, and
repeating it changes nothing further; a halted block takes no step. -/
def Obligations.ResetZeroesEverySlot : Prop :=
  (∀ w : TxnWord, decode w = .ok .reset ↔ w = 0) ∧
  ∀ s : State,
    (s.halted = none → ∃ t, exec .reset s = .next t ∧ exec .reset t = .next t ∧
      t = { a := 0, f := 0, b := 0, c := 0, d := 0, e := 0, h := 0, l := 0, sp := 0, pc := 0
            written := ⟨true, true, true, true, true, true, true, true, true, true⟩
            halted := none, requests := s.requests, response := some .ack }) ∧
    (∀ k, s.halted = some k → exec .reset s = .fault (.halted k))

/-- The state after RESET (the table of R65, which the spec derives from R43) is `State.reset`, but for the two fields of
the model's own port (log entry 5). -/
def Obligations.StateResetIsTheStateAfterReset : Prop :=
  (State.reset.a = 0 ∧ State.reset.readByte .f = 0 ∧ State.reset.b = 0 ∧ State.reset.c = 0 ∧ State.reset.d = 0 ∧
    State.reset.e = 0 ∧ State.reset.h = 0 ∧ State.reset.l = 0 ∧ State.reset.sp = 0x0000 ∧ State.reset.pc = 0x0000) ∧
  AllWritten State.reset ∧ State.reset.halted = none ∧
  ∀ s : State, s.halted = none → exec .reset s = .next { State.reset with requests := s.requests, response := some .ack }

/-- R44 whole: the encoding; a written register is returned and nothing else changes; `(HL)` faults NotARegister (decision
D5), an unwritten register Uninitialised (decision D2). -/
def Obligations.Read8ReturnsItsRegister : Prop :=
  (∀ (w : TxnWord) (r : R8), decode w = .ok (.read8 r) ↔ w = r.code.setWidth 32 <<< 3 ||| 1) ∧
  ∀ s : State, s.halted = none →
    (∀ r x, (r, x) ∈ registerTable → s.isWritten (.byte x) = true →
      exec (.read8 r) s = .next { s with response := some (.byte (s.readByte x)) }) ∧
    (∀ r x, (r, x) ∈ registerTable → s.isWritten (.byte x) = false →
      exec (.read8 r) s =
        .next { s with halted := some (.uninitialised (.byte x)), response := some (.fault (.uninitialised (.byte x))) }) ∧
    exec (.read8 .hlMem) s =
      .next { s with halted := some (.notARegister 6), response := some (.fault (.notARegister 6)) }

/-- R45 whole: the encoding; the named register and its written bit are overwritten, whatever they were, and nothing else
changes; `(HL)` faults NotARegister (decision D5). -/
def Obligations.Write8OverwritesItsRegister : Prop :=
  (∀ (w : TxnWord) (r : R8) (v : Byte),
    decode w = .ok (.write8 r v) ↔ w = v.setWidth 32 <<< 8 ||| r.code.setWidth 32 <<< 3 ||| 2) ∧
  ∀ (s : State) (v : Byte), s.halted = none →
    exec (.write8 .b v) s = .next { s with b := v, written := { s.written with b := true }, response := some .ack } ∧
    exec (.write8 .c v) s = .next { s with c := v, written := { s.written with c := true }, response := some .ack } ∧
    exec (.write8 .d v) s = .next { s with d := v, written := { s.written with d := true }, response := some .ack } ∧
    exec (.write8 .e v) s = .next { s with e := v, written := { s.written with e := true }, response := some .ack } ∧
    exec (.write8 .h v) s = .next { s with h := v, written := { s.written with h := true }, response := some .ack } ∧
    exec (.write8 .l v) s = .next { s with l := v, written := { s.written with l := true }, response := some .ack } ∧
    exec (.write8 .a v) s = .next { s with a := v, written := { s.written with a := true }, response := some .ack } ∧
    exec (.write8 .hlMem v) s =
      .next { s with halted := some (.notARegister 6), response := some (.fault (.notARegister 6)) }

/-- R46: the encoding; a pair view is `(high << 8) | low` of its halves as they are now, SP and PC are returned
directly, and nothing else changes; an unwritten slot faults Uninitialised, the high half first (decision D2). That bits 3..0 of READ16 AF are 0, which the rule derives, is a clause of LowNibbleOfFIsAlwaysZero. -/
def Obligations.Read16ReturnsItsView : Prop :=
  (∀ (w : TxnWord) (p : P16), decode w = .ok (.read16 p) ↔ w = p.code.setWidth 32 <<< 3 ||| 3) ∧
  ∀ s : State, s.halted = none →
    (∀ p hi lo, (p, hi, lo) ∈ pairTable →
      (s.isWritten (.byte hi) = true → s.isWritten (.byte lo) = true →
        exec (.read16 p) s = .next { s with
          response := some (.word ((s.readByte hi).setWidth 16 <<< 8 ||| (s.readByte lo).setWidth 16)) }) ∧
      (s.isWritten (.byte hi) = false → exec (.read16 p) s =
        .next { s with halted := some (.uninitialised (.byte hi)), response := some (.fault (.uninitialised (.byte hi))) }) ∧
      (s.isWritten (.byte hi) = true → s.isWritten (.byte lo) = false → exec (.read16 p) s =
        .next { s with halted := some (.uninitialised (.byte lo)), response := some (.fault (.uninitialised (.byte lo))) })) ∧
    (∀ p x, (p, x) ∈ wordTable →
      (s.isWritten (.word x) = true → exec (.read16 p) s = .next { s with response := some (.word (s.readWord x)) }) ∧
      (s.isWritten (.word x) = false → exec (.read16 p) s =
        .next { s with halted := some (.uninitialised (.word x)), response := some (.fault (.uninitialised (.word x))) }))

/-- R47 whole: the encoding; BC, DE and HL take the word's two bytes in their halves, AF takes them with the low byte
masked (so Z, N, H and C get word bits 7, 6, 5 and 4), SP and PC take the word; the written bits of what is written are set and
nothing else changes. -/
def Obligations.Write16WritesItsView : Prop :=
  (∀ (w : TxnWord) (p : P16) (d : Word),
    decode w = .ok (.write16 p d) ↔ w = d.setWidth 32 <<< 8 ||| p.code.setWidth 32 <<< 3 ||| 4) ∧
  ∀ (s : State) (w : Word), s.halted = none →
    exec (.write16 .bc w) s = .next { s with
      b := (w >>> 8).setWidth 8, c := (w &&& 0xFF).setWidth 8
      written := { s.written with b := true, c := true }, response := some .ack } ∧
    exec (.write16 .de w) s = .next { s with
      d := (w >>> 8).setWidth 8, e := (w &&& 0xFF).setWidth 8
      written := { s.written with d := true, e := true }, response := some .ack } ∧
    exec (.write16 .hl w) s = .next { s with
      h := (w >>> 8).setWidth 8, l := (w &&& 0xFF).setWidth 8
      written := { s.written with h := true, l := true }, response := some .ack } ∧
    exec (.write16 .af w) s = .next { s with
      a := (w >>> 8).setWidth 8, f := w.extractLsb' 4 4
      written := { s.written with a := true, f := true }, response := some .ack } ∧
    exec (.write16 .sp w) s = .next { s with
      sp := w, written := { s.written with sp := true }, response := some .ack } ∧
    exec (.write16 .pc w) s = .next { s with
      pc := w, written := { s.written with pc := true }, response := some .ack }

/-- R48 whole: the encoding; FLAG answers the flag's bit of F and nothing else changes; an unwritten F faults Uninitialised
(decision D2). -/
def Obligations.FlagReadsOneBit : Prop :=
  (∀ (w : TxnWord) (f : Flag), decode w = .ok (.flag f) ↔ w = f.code.setWidth 32 <<< 3 ||| 5) ∧
  ∀ (s : State) (f : Flag) (pos : Nat), s.halted = none → (f, pos) ∈ flagTable →
    (s.isWritten (.byte .f) = true →
      exec (.flag f) s = .next { s with response := some (.bool ((s.readByte .f).getLsbD pos)) }) ∧
    (s.isWritten (.byte .f) = false → exec (.flag f) s =
      .next { s with halted := some (.uninitialised (.byte .f)), response := some (.fault (.uninitialised (.byte .f))) })

/-- R49 whole: the encoding; the flag's bit of F becomes `b`, every other bit of F and everything else is unchanged; an
unwritten F faults Uninitialised (decision D2). -/
def Obligations.SetFlagWritesOneBit : Prop :=
  (∀ (w : TxnWord) (f : Flag) (b : Bool),
    decode w = .ok (.setFlag f b) ↔ w = (BitVec.ofBool b).setWidth 32 <<< 6 ||| f.code.setWidth 32 <<< 3 ||| 6) ∧
  ∀ (s : State) (f : Flag) (pos : Nat) (b : Bool), s.halted = none → (f, pos) ∈ flagTable →
    (s.isWritten (.byte .f) = true →
      ∃ g : BitVec 4, exec (.setFlag f b) s = .next { s with f := g, response := some .ack } ∧
        ∀ q, (wholeF g).getLsbD q = if q = pos then b else (s.readByte .f).getLsbD q) ∧
    (s.isWritten (.byte .f) = false → exec (.setFlag f b) s =
      .next { s with halted := some (.uninitialised (.byte .f)), response := some (.fault (.uninitialised (.byte .f))) })

/-- Every operation completes, without a fault, on operands that name a register and slots that are written: for each of
RESET, READ8, WRITE8, READ16, WRITE16, FLAG and SET_FLAG. From R52 (which the spec derives). -/
def Obligations.EveryOperationCompletes : Prop :=
  ∀ (i : Instr) (s : State), s.halted = none → i.wellFormed = true → (∀ x ∈ readSlots i, s.isWritten x = true) →
    ∃ t r, exec i s = .next t ∧ t.halted = none ∧ t.response = some r ∧ ∀ k, r ≠ .fault k

/-! ### Rules over all operations -/

/-- R16 whole: the access matrix, and what it means: an operation changes no slot and no written bit outside its `w`
cells, and what it answers and what it writes depend on no slot outside its `r` cells. -/
def Obligations.OperationsReachOnlyTheirSlots : Prop :=
  ((∀ r x v, (r, x) ∈ registerTable →
      readSlots (.read8 r) = [.byte x] ∧ writeSlots (.read8 r) = [] ∧
      readSlots (.write8 r v) = [] ∧ writeSlots (.write8 r v) = [.byte x]) ∧
    (∀ p hi lo w, (p, hi, lo) ∈ pairTable →
      readSlots (.read16 p) = [.byte hi, .byte lo] ∧ writeSlots (.read16 p) = [] ∧
      readSlots (.write16 p w) = [] ∧ writeSlots (.write16 p w) = [.byte hi, .byte lo]) ∧
    (∀ p x w, (p, x) ∈ wordTable →
      readSlots (.read16 p) = [.word x] ∧ writeSlots (.read16 p) = [] ∧
      readSlots (.write16 p w) = [] ∧ writeSlots (.write16 p w) = [.word x]) ∧
    (∀ f b, readSlots (.flag f) = [.byte .f] ∧ writeSlots (.flag f) = [] ∧
      readSlots (.setFlag f b) = [.byte .f] ∧ writeSlots (.setFlag f b) = [.byte .f]) ∧
    readSlots .reset = [] ∧ (∀ x, x ∈ writeSlots .reset) ∧
    readSlots (.read8 .hlMem) = [] ∧ (∀ v, writeSlots (.write8 .hlMem v) = [])) ∧
  (∀ (i : Instr) (s t : State) (x : Slot), exec i s = .next t → x ∉ writeSlots i → SameSlot x s t) ∧
  (∀ (i : Instr) (s s' t t' : State), (∀ x ∈ readSlots i, SameSlot x s s') →
    exec i s = .next t → exec i s' = .next t' →
    t.response = t'.response ∧ t.halted = t'.halted ∧ (t.halted = none → ∀ x ∈ writeSlots i, SameSlot x t t'))

/-- R15 whole (F[3:0] hardwired: decision D3, conflict C6): F's low nibble reads 0 in every state; a write of `v` to F keeps
`v & 0xF0`, on each path that writes F; WRITE8 cannot name F; no READ16 AF shows a low bit set. -/
def Obligations.LowNibbleOfFIsAlwaysZero : Prop :=
  (∀ s : State, s.readByte .f &&& 0x0F = 0) ∧
  (∀ (s : State) (v : Byte), (s.storeByte .f v).readByte .f = v &&& 0xF0) ∧
  (∀ s t : State, s.halted = none → exec .reset s = .next t → t.readByte .f = 0x00 &&& 0xF0) ∧
  (∀ (s t : State) (w : Word), exec (.write16 .af w) s = .next t → t.readByte .f = w.setWidth 8 &&& 0xF0) ∧
  (∀ (s t : State) (f : Flag) (pos : Nat) (b : Bool), (f, pos) ∈ flagTable →
    exec (.setFlag f b) s = .next t → t.halted = none → t.readByte .f =
      (if b then s.readByte .f ||| (1#8 <<< pos) else s.readByte .f &&& ~~~(1#8 <<< pos)) &&& 0xF0) ∧
  (∀ (s t : State) (r : R8) (v : Byte), exec (.write8 r v) s = .next t → t.f = s.f) ∧
  (∀ (s t : State) (v : Word), exec (.read16 .af) s = .next t → t.response = some (.word v) → v &&& 0x000F = 0)

/-- R50 (which the spec derives): only RESET, WRITE16 AF and SET_FLAG change F. -/
def Obligations.OnlyThreeOperationsChangeF : Prop :=
  ∀ (i : Instr) (s t : State), exec i s = .next t → t.f ≠ s.f ∨ t.written.f ≠ s.written.f →
    i = .reset ∨ (∃ w, i = .write16 .af w) ∨ ∃ f b, i = .setFlag f b

/-- R13 whole (no control transfer: decision D20): a step changes SP or PC only where the client's word is RESET or
WRITE16 of that slot, and WRITE16 puts any word there, even or odd. -/
def Obligations.OnlyWrite16AndResetChangeSpAndPc : Prop :=
  (∀ s t : State, step s = .next t →
    (t.sp ≠ s.sp → ∃ w rest, s.requests = w :: rest ∧ (decode w = .ok .reset ∨ ∃ v, decode w = .ok (.write16 .sp v))) ∧
    (t.pc ≠ s.pc → ∃ w rest, s.requests = w :: rest ∧ (decode w = .ok .reset ∨ ∃ v, decode w = .ok (.write16 .pc v)))) ∧
  (∀ (s : State) (w : Word), s.halted = none →
    (∃ t, exec (.write16 .sp w) s = .next t ∧ t.sp = w) ∧ (∃ t, exec (.write16 .pc w) s = .next t ∧ t.pc = w))

/-- R21 whole: the pair views are big-endian in their names. A 16-bit write splits, an 8-bit write of a half changes that
byte alone, a 16-bit read composes the halves as they are now, and no 8-bit access reaches SP or PC. -/
def Obligations.PairViewsAreBigEndian : Prop :=
  (∀ (p : P16) (hi lo : Slot8) (s t : State) (w : Word), (p, hi, lo) ∈ pairTable → exec (.write16 p w) s = .next t →
    t.readByte hi = (w >>> 8).setWidth 8 ∧
    t.readByte lo = if p = .af then (w &&& 0xF0).setWidth 8 else (w &&& 0xFF).setWidth 8) ∧
  (∀ (p : P16) (hi lo : Slot8) (r : R8) (s t : State) (v : Byte), (p, hi, lo) ∈ pairTable →
    exec (.write8 r v) s = .next t →
    ((r, hi) ∈ registerTable → t.readByte hi = v ∧ t.readByte lo = s.readByte lo) ∧
    ((r, lo) ∈ registerTable → t.readByte lo = v ∧ t.readByte hi = s.readByte hi)) ∧
  (∀ (p : P16) (hi lo : Slot8) (s t : State) (v : Word), (p, hi, lo) ∈ pairTable → exec (.read16 p) s = .next t →
    t.response = some (.word v) → v = (s.readByte hi).setWidth 16 <<< 8 ||| (s.readByte lo).setWidth 16) ∧
  (∀ (s t : State) (r : R8) (v : Byte), exec (.read8 r) s = .next t ∨ exec (.write8 r v) s = .next t →
    t.sp = s.sp ∧ t.pc = s.pc)

/-- S3 of 95_test_vectors.md: writing the two halves of BC, DE or HL and then reading the pair gives their composition. -/
def Obligations.WriteHalvesThenReadPair : Prop :=
  ∀ (p : P16) (hi lo : Slot8) (rh rl : R8) (s : State) (x y : Byte), s.halted = none → (p, hi, lo) ∈ pairTable →
    (rh, hi) ∈ registerTable → (rl, lo) ∈ registerTable →
    ∃ t u, exec (.write8 rh x) s = .next t ∧ exec (.write8 rl y) t = .next u ∧
      exec (.read16 p) u = .next { u with response := some (.word (x ++ y)) }

/-- R24 (its idempotence half the spec derives): READ8, READ16 and FLAG change no slot and no written bit and, repeated,
answer the same; a WRITE8, WRITE16, SET_FLAG or RESET repeated with the same operands leaves the same state. -/
def Obligations.ReadsArePureAndWritesIdempotent : Prop :=
  ∀ (i : Instr) (s t : State), exec i s = .next t →
    (((∃ r, i = .read8 r) ∨ (∃ p, i = .read16 p) ∨ ∃ f, i = .flag f) → ∀ x, SameSlot x s t) ∧ (t.halted = none → exec i t = .next t)

/-- R52 (which the spec derives), for a whole run: from a block with every slot written, no client that issues only
operations of the source's domain ever halts it, however long it runs. Past the client's last word the run idles, a step
that changes nothing: the model's choice (log entry 3). -/
def Obligations.DomainRunsNeverHalt : Prop :=
  ∀ (n : Nat) (s : State), AllWritten s → s.halted = none →
    (∀ w ∈ s.requests, ∃ i, decode w = .ok i ∧ i.wellFormed = true) →
    ∃ t, runSteps n s = .next t ∧ t.halted = none ∧ AllWritten t ∧ t.requests = s.requests.drop n

/-- R56 whole (the spec's decision D21), with the causes of R53, R54 and R55: a halted block takes no step; else Reserved;
else NotARegister; else Uninitialised for the first unwritten slot in the order of R55; else no fault. -/
def Obligations.FaultsFollowTheirPriority : Prop :=
  ∀ (s : State) (w : TxnWord) (rest : List TxnWord), s.requests = w :: rest →
    (∀ k, s.halted = some k → step s = .fault (.halted k)) ∧
    (s.halted = none → ∃ t, step s = .next t ∧
      (ReservedWord w → t.halted = some (.reserved w)) ∧
      (∀ i, decode w = .ok i →
        ((i = .read8 .hlMem ∨ ∃ v, i = .write8 .hlMem v) → t.halted = some (.notARegister 6)) ∧
        (i ≠ .read8 .hlMem → (∀ v, i ≠ .write8 .hlMem v) →
          t.halted = ((readSlots i).find? (fun x => !s.isWritten x)).map .uninitialised)))

/-- R64 (decision D2), for every block at power-on whatever its slots hold: F's low nibble reads 0, every operation that
reads a slot faults Uninitialised on the first slot it reads, and RESET makes every read good. The power-on values
themselves are free values (log entry 6). -/
def Obligations.PowerOnReadsFaultUntilReset : Prop :=
  AtPowerOn State.powerOn ∧
  ∀ s : State, AtPowerOn s →
    s.readByte .f &&& 0x0F = 0 ∧
    (∀ i x xs, i.wellFormed = true → readSlots i = x :: xs → exec i s =
      .next { s with halted := some (.uninitialised x), response := some (.fault (.uninitialised x)) }) ∧
    (∃ t, exec .reset s = .next t ∧ AllWritten t ∧ t.halted = none)

/-! ### Invariants and runs -/

/-- The client's view and the block's agree at reset and at power-on, and every slot is written after reset. -/
def Obligations.ResetStateMeetsTheInvariants : Prop :=
  PortAgrees State.reset ∧ PortAgrees State.powerOn ∧ AllWritten State.reset

/-- From R41, R57: every step keeps the agreement of the last response with `halted`. The response field is the model's
(log entry 2). -/
def Obligations.StepKeepsPortAgreement : Prop :=
  ∀ s t : State, PortAgrees s → step s = .next t → PortAgrees t

/-- From R18 (decision D2): a written bit, once 1, stays 1 through every step, and a step sets one only for a slot its
operation writes. -/
def Obligations.WrittenBitsOnlyRise : Prop :=
  ∀ (s t : State) (x : Slot), step s = .next t →
    (s.isWritten x = true → t.isWritten x = true) ∧
    (s.isWritten x = false → t.isWritten x = true →
      ∃ w rest i, s.requests = w :: rest ∧ decode w = .ok i ∧ x ∈ writeSlots i)

/-- From R25 (decision D11): over a run of any length, a slot that none of the operations issued writes keeps its value and
its written bit. Past the client's last word the run idles, a step that changes nothing: the model's choice (log entry 3). -/
def Obligations.UntouchedSlotsKeepTheirValueOverAnyRun : Prop :=
  ∀ (n : Nat) (s t : State) (x : Slot), runSteps n s = .next t →
    (∀ w ∈ s.requests.take n, ∀ i, decode w = .ok i → x ∉ writeSlots i) → SameSlot x s t

/-- From R25 (decision D11): a READ16 answers the word of the last WRITE16 of its pair or slot (AF masked, R47), whatever
operations that write none of its slots came between, if none of them halted the block. -/
def Obligations.Read16AnswersTheLastWrite16 : Prop :=
  ∀ (s m : State) (p : P16) (w : Word) (between : List Instr), s.halted = none →
    s.requests = encode (.write16 p w) :: between.map encode ++ [encode (.read16 p)] →
    (∀ i ∈ between, ∀ x ∈ portSlots p, x ∉ writeSlots i) →
    runSteps (between.length + 1) s = .next m → m.halted = none →
    runSteps (between.length + 2) s =
      .next { m with requests := [], response := some (.word (keptWord p w)) }

/-- From R25 (decision D11): a READ8 answers the byte of the last WRITE8 of its register, whatever operations that do not
write that register came between, if none of them halted the block. -/
def Obligations.Read8AnswersTheLastWrite8 : Prop :=
  ∀ (s m : State) (r : R8) (y : Slot8) (v : Byte) (between : List Instr), s.halted = none → (r, y) ∈ registerTable →
    s.requests = encode (.write8 r v) :: between.map encode ++ [encode (.read8 r)] →
    (∀ i ∈ between, Slot.byte y ∉ writeSlots i) →
    runSteps (between.length + 1) s = .next m → m.halted = none →
    runSteps (between.length + 2) s = .next { m with requests := [], response := some (.byte v) }
end

