-- ==== Sys2Proof/Laws/Encoding.lean ====
section
/-! SUPPORT. The selector codes and their inverses, and what the decoder can answer, said once
(spec/30_encoding.md R29, R34, R36, R38). -/

namespace Sys2Proof

/-! ### Selector codes -/

theorem R8.ofCode_code (r : R8) : R8.ofCode r.code = r := by cases r <;> rfl

theorem R8.code_ofCode (c : BitVec 3) : (R8.ofCode c).code = c := by revert c; decide

theorem P16.ofCode?_code (p : P16) : P16.ofCode? p.code = some p := by cases p <;> rfl

theorem P16.code_of_ofCode? {c : BitVec 3} {p : P16} : P16.ofCode? c = some p → p.code = c := by
  cases p <;> revert c <;> decide

theorem P16.ofCode?_eq_none (c : BitVec 3) : P16.ofCode? c = none ↔ 6 ≤ c.toNat := by revert c; decide

theorem Flag.ofCode?_code (f : Flag) : Flag.ofCode? f.code = some f := by cases f <;> rfl

theorem Flag.code_of_ofCode? {c : BitVec 3} {f : Flag} : Flag.ofCode? c = some f → f.code = c := by
  cases f <;> revert c <;> decide

theorem Flag.ofCode?_eq_none (c : BitVec 3) : Flag.ofCode? c = none ↔ c.toNat ≤ 3 := by revert c; decide

/-! ### Fields that are zero -/

/-- A field is zero exactly when each of its bits is. -/
theorem extract_eq_zero_iff (w : TxnWord) (lo n : Nat) :
    w.extractLsb' lo n = 0 ↔ ∀ k, lo ≤ k → k < lo + n → w.getLsbD k = false := by
  constructor
  · intro h k h1 h2
    have hb := congrArg (fun x => x.getLsbD (k - lo)) h
    have e1 : k - lo < n := by omega
    have e2 : lo + (k - lo) = k := by omega
    simpa [e1, e2] using hb
  · intro h
    apply BitVec.eq_of_getLsbD_eq
    intro i hi
    simp [hi, h (lo + i) (by omega) (by omega)]

/-- A masked word is zero exactly when each bit the mask keeps is. -/
theorem and_eq_zero_iff (w m : TxnWord) :
    w &&& m = 0 ↔ ∀ k, k < 32 → m.getLsbD k = true → w.getLsbD k = false := by
  constructor
  · intro h k _ hm
    have hb := congrArg (fun x => x.getLsbD k) h
    simpa [hm] using hb
  · intro h
    apply BitVec.eq_of_getLsbD_eq
    intro i hi
    have := h i hi
    cases hm : m.getLsbD i <;> simp_all

/-! ### The decoder -/

/-- What a refusal records: the word (R39, R53). -/
theorem decode_error_word {w : TxnWord} {e : DecodeReject} (h : decode w = .error e) : e = .reserved w := by
  unfold decode operandOr at h
  repeat' split at h
  all_goals first | cases h; rfl | cases h

theorem eq_ofNat_of_toNat {c : BitVec 3} {n : Nat} (h : c.toNat = n) : c = BitVec.ofNat 3 n := by
  apply BitVec.eq_of_toNat_eq
  simp [← h]

/-- The inversion of the decoder: an accepted word has bits 31:24 and 7 zero, and is of one of the seven forms (R38). -/
theorem decode_ok_cases {w : TxnWord} {i : Instr} (h : decode w = .ok i) :
    w.extractLsb' 24 8 = 0 ∧ w.getLsbD 7 = false ∧
      ((w.op = 0 ∧ w.extractLsb' 3 21 = 0 ∧ i = .reset) ∨
        (w.op = 1 ∧ w.extractLsb' 6 18 = 0 ∧ i = .read8 (R8.ofCode w.sel)) ∨
        (w.op = 2 ∧ w.extractLsb' 16 8 = 0 ∧ w.v = false ∧ i = .write8 (R8.ofCode w.sel) w.byte) ∨
        (w.op = 3 ∧ w.extractLsb' 6 18 = 0 ∧ ∃ p, P16.ofCode? w.sel = some p ∧ i = .read16 p) ∨
        (w.op = 4 ∧ w.v = false ∧ ∃ p, P16.ofCode? w.sel = some p ∧ i = .write16 p w.data) ∨
        (w.op = 5 ∧ w.extractLsb' 6 18 = 0 ∧ ∃ f, Flag.ofCode? w.sel = some f ∧ i = .flag f) ∨
        (w.op = 6 ∧ w.extractLsb' 8 16 = 0 ∧ ∃ f, Flag.ofCode? w.sel = some f ∧ i = .setFlag f w.v)) := by
  unfold decode at h
  split at h
  · cases h
  rename_i h0
  push Not at h0
  refine ⟨h0.1, by simpa using h0.2, ?_⟩
  split at h <;> rename_i ho <;> try replace ho := eq_ofNat_of_toNat ho
  · split at h <;> rename_i h1
    · cases h
    · cases h; exact .inl ⟨ho, by simpa using h1, rfl⟩
  · split at h <;> rename_i h1
    · cases h
    · cases h; exact .inr (.inl ⟨ho, by simpa using h1, rfl⟩)
  · split at h <;> rename_i h1
    · cases h
    · push Not at h1
      cases h; exact .inr (.inr (.inl ⟨ho, h1.1, by simpa using h1.2, rfl⟩))
  · split at h <;> rename_i h1
    · cases h
    · cases hp : P16.ofCode? w.sel with
      | none => simp [hp, operandOr] at h
      | some p =>
        simp only [hp, operandOr, Option.map] at h
        cases h; exact .inr (.inr (.inr (.inl ⟨ho, by simpa using h1, p, rfl, rfl⟩)))
  · split at h <;> rename_i h1
    · cases h
    · cases hp : P16.ofCode? w.sel with
      | none => simp [hp, operandOr] at h
      | some p =>
        simp only [hp, operandOr, Option.map] at h
        cases h; exact .inr (.inr (.inr (.inr (.inl ⟨ho, by simpa using h1, p, rfl, rfl⟩))))
  · split at h <;> rename_i h1
    · cases h
    · cases hp : Flag.ofCode? w.sel with
      | none => simp [hp, operandOr] at h
      | some f =>
        simp only [hp, operandOr, Option.map] at h
        cases h; exact .inr (.inr (.inr (.inr (.inr (.inl ⟨ho, by simpa using h1, f, rfl, rfl⟩)))))
  · split at h <;> rename_i h1
    · cases h
    · cases hp : Flag.ofCode? w.sel with
      | none => simp [hp, operandOr] at h
      | some f =>
        simp only [hp, operandOr, Option.map] at h
        cases h; exact .inr (.inr (.inr (.inr (.inr (.inr ⟨ho, by simpa using h1, f, rfl, rfl⟩)))))
  · cases h

end Sys2Proof
end

