-- ==== Sys2Proof/Laws/State.lean ====
section
/-! SUPPORT. What each update of State does to each field, so that no later proof unfolds a record update, and the
read-after-write laws of the slots and of the written bits. -/

namespace Sys2Proof.Machine

variable (s : State) (x : Slot) (r : Response) (k : FaultKind) (w : TxnWord)

/-! ### Responding -/

@[simp] theorem State.respond_a : (s.respond r).a = s.a := rfl
@[simp] theorem State.respond_f : (s.respond r).f = s.f := rfl
@[simp] theorem State.respond_b : (s.respond r).b = s.b := rfl
@[simp] theorem State.respond_c : (s.respond r).c = s.c := rfl
@[simp] theorem State.respond_d : (s.respond r).d = s.d := rfl
@[simp] theorem State.respond_e : (s.respond r).e = s.e := rfl
@[simp] theorem State.respond_h : (s.respond r).h = s.h := rfl
@[simp] theorem State.respond_l : (s.respond r).l = s.l := rfl
@[simp] theorem State.respond_sp : (s.respond r).sp = s.sp := rfl
@[simp] theorem State.respond_pc : (s.respond r).pc = s.pc := rfl
@[simp] theorem State.respond_written : (s.respond r).written = s.written := rfl
@[simp] theorem State.respond_halted : (s.respond r).halted = s.halted := rfl
@[simp] theorem State.respond_requests : (s.respond r).requests = s.requests := rfl
@[simp] theorem State.respond_response : (s.respond r).response = some r := rfl

/-! ### Taking a fault -/

@[simp] theorem State.raise_a : (s.raise k).a = s.a := rfl
@[simp] theorem State.raise_f : (s.raise k).f = s.f := rfl
@[simp] theorem State.raise_b : (s.raise k).b = s.b := rfl
@[simp] theorem State.raise_c : (s.raise k).c = s.c := rfl
@[simp] theorem State.raise_d : (s.raise k).d = s.d := rfl
@[simp] theorem State.raise_e : (s.raise k).e = s.e := rfl
@[simp] theorem State.raise_h : (s.raise k).h = s.h := rfl
@[simp] theorem State.raise_l : (s.raise k).l = s.l := rfl
@[simp] theorem State.raise_sp : (s.raise k).sp = s.sp := rfl
@[simp] theorem State.raise_pc : (s.raise k).pc = s.pc := rfl
@[simp] theorem State.raise_written : (s.raise k).written = s.written := rfl
@[simp] theorem State.raise_requests : (s.raise k).requests = s.requests := rfl
@[simp] theorem State.raise_halted : (s.raise k).halted = some k := rfl
@[simp] theorem State.raise_response : (s.raise k).response = some (.fault k) := rfl

/-! ### Setting a written bit -/

@[simp] theorem State.mark_a : (s.mark x).a = s.a := rfl
@[simp] theorem State.mark_f : (s.mark x).f = s.f := rfl
@[simp] theorem State.mark_b : (s.mark x).b = s.b := rfl
@[simp] theorem State.mark_c : (s.mark x).c = s.c := rfl
@[simp] theorem State.mark_d : (s.mark x).d = s.d := rfl
@[simp] theorem State.mark_e : (s.mark x).e = s.e := rfl
@[simp] theorem State.mark_h : (s.mark x).h = s.h := rfl
@[simp] theorem State.mark_l : (s.mark x).l = s.l := rfl
@[simp] theorem State.mark_sp : (s.mark x).sp = s.sp := rfl
@[simp] theorem State.mark_pc : (s.mark x).pc = s.pc := rfl
@[simp] theorem State.mark_halted : (s.mark x).halted = s.halted := rfl
@[simp] theorem State.mark_requests : (s.mark x).requests = s.requests := rfl
@[simp] theorem State.mark_response : (s.mark x).response = s.response := rfl
@[simp] theorem State.mark_written : (s.mark x).written = s.written.mark x := rfl

/-! ### Presenting a transaction -/

@[simp] theorem State.present_a : (s.present w).a = s.a := rfl
@[simp] theorem State.present_f : (s.present w).f = s.f := rfl
@[simp] theorem State.present_b : (s.present w).b = s.b := rfl
@[simp] theorem State.present_c : (s.present w).c = s.c := rfl
@[simp] theorem State.present_d : (s.present w).d = s.d := rfl
@[simp] theorem State.present_e : (s.present w).e = s.e := rfl
@[simp] theorem State.present_h : (s.present w).h = s.h := rfl
@[simp] theorem State.present_l : (s.present w).l = s.l := rfl
@[simp] theorem State.present_sp : (s.present w).sp = s.sp := rfl
@[simp] theorem State.present_pc : (s.present w).pc = s.pc := rfl
@[simp] theorem State.present_written : (s.present w).written = s.written := rfl
@[simp] theorem State.present_halted : (s.present w).halted = s.halted := rfl
@[simp] theorem State.present_response : (s.present w).response = s.response := rfl
@[simp] theorem State.present_requests : (s.present w).requests = w :: s.requests := rfl

/-! ### Zeroing every slot -/

@[simp] theorem State.zeroSlots_halted : (s.zeroSlots).halted = s.halted := rfl
@[simp] theorem State.zeroSlots_requests : (s.zeroSlots).requests = s.requests := rfl
@[simp] theorem State.zeroSlots_response : (s.zeroSlots).response = s.response := rfl
@[simp] theorem State.zeroSlots_a : (s.zeroSlots).a = 0 := rfl
@[simp] theorem State.zeroSlots_f : (s.zeroSlots).f = 0 := rfl
@[simp] theorem State.zeroSlots_b : (s.zeroSlots).b = 0 := rfl
@[simp] theorem State.zeroSlots_c : (s.zeroSlots).c = 0 := rfl
@[simp] theorem State.zeroSlots_d : (s.zeroSlots).d = 0 := rfl
@[simp] theorem State.zeroSlots_e : (s.zeroSlots).e = 0 := rfl
@[simp] theorem State.zeroSlots_h : (s.zeroSlots).h = 0 := rfl
@[simp] theorem State.zeroSlots_l : (s.zeroSlots).l = 0 := rfl
@[simp] theorem State.zeroSlots_sp : (s.zeroSlots).sp = 0 := rfl
@[simp] theorem State.zeroSlots_pc : (s.zeroSlots).pc = 0 := rfl
@[simp] theorem State.zeroSlots_written : (s.zeroSlots).written = Written.all := rfl

/-! ### Storing a slot: the fields that are not slots, and the other kind of slot -/

variable (y : Slot8) (z : Slot16) (v : Byte) (u : Word)

@[simp] theorem State.storeByte_sp : (s.storeByte y v).sp = s.sp := by cases y <;> rfl
@[simp] theorem State.storeByte_pc : (s.storeByte y v).pc = s.pc := by cases y <;> rfl
@[simp] theorem State.storeByte_readWord : (s.storeByte y v).readWord z = s.readWord z := by cases y <;> rfl
@[simp] theorem State.storeByte_written : (s.storeByte y v).written = s.written := by cases y <;> rfl
@[simp] theorem State.storeByte_halted : (s.storeByte y v).halted = s.halted := by cases y <;> rfl
@[simp] theorem State.storeByte_requests : (s.storeByte y v).requests = s.requests := by cases y <;> rfl
@[simp] theorem State.storeByte_response : (s.storeByte y v).response = s.response := by cases y <;> rfl
@[simp] theorem State.storeWord_f : (s.storeWord z u).f = s.f := by cases z <;> rfl
@[simp] theorem State.storeWord_readByte : (s.storeWord z u).readByte y = s.readByte y := by cases z <;> rfl
@[simp] theorem State.storeWord_written : (s.storeWord z u).written = s.written := by cases z <;> rfl
@[simp] theorem State.storeWord_halted : (s.storeWord z u).halted = s.halted := by cases z <;> rfl
@[simp] theorem State.storeWord_requests : (s.storeWord z u).requests = s.requests := by cases z <;> rfl
@[simp] theorem State.storeWord_response : (s.storeWord z u).response = s.response := by cases z <;> rfl

/-! ### Reading a slot after an update that stores none -/

@[simp] theorem State.respond_readByte : (s.respond r).readByte y = s.readByte y := rfl
@[simp] theorem State.respond_readWord : (s.respond r).readWord z = s.readWord z := rfl
@[simp] theorem State.respond_isWritten : (s.respond r).isWritten x = s.isWritten x := rfl
@[simp] theorem State.raise_readByte : (s.raise k).readByte y = s.readByte y := rfl
@[simp] theorem State.raise_readWord : (s.raise k).readWord z = s.readWord z := rfl
@[simp] theorem State.raise_isWritten : (s.raise k).isWritten x = s.isWritten x := rfl
@[simp] theorem State.mark_readByte : (s.mark x).readByte y = s.readByte y := rfl
@[simp] theorem State.mark_readWord : (s.mark x).readWord z = s.readWord z := rfl
@[simp] theorem State.present_readByte : (s.present w).readByte y = s.readByte y := rfl
@[simp] theorem State.present_readWord : (s.present w).readWord z = s.readWord z := rfl
@[simp] theorem State.present_isWritten : (s.present w).isWritten x = s.isWritten x := rfl
@[simp] theorem State.storeByte_isWritten : (s.storeByte y v).isWritten x = s.isWritten x := by
  simp [State.isWritten]
@[simp] theorem State.storeWord_isWritten : (s.storeWord z u).isWritten x = s.isWritten x := by
  simp [State.isWritten]

/-! ### Read after write -/

/-- Reading F after storing `v` in it gives `v & 0xF0` (R15). -/
theorem wholeF_storedF : wholeF (storedF v) = v &&& 0xF0 := by
  revert v; decide

/-- Storing F as it reads keeps its stored bits. -/
theorem storedF_wholeF (q : BitVec 4) : storedF (wholeF q) = q := by
  revert q; decide

/-- The low nibble of F reads 0 whatever is stored (R15). -/
theorem wholeF_low (q : BitVec 4) : wholeF q &&& 0x0F = 0 := by
  revert q; decide

/-- What an 8-bit slot holds after `v` is written to it: F keeps only the high nibble (R15). -/
def kept (y : Slot8) (v : Byte) : Byte := if y = .f then v &&& 0xF0 else v

theorem readByte_storeByte_same : (s.storeByte y v).readByte y = kept y v := by
  cases y <;> simp [State.storeByte, State.readByte, kept, wholeF_storedF]

theorem readByte_storeByte_other (y' : Slot8) (h : y' ≠ y) : (s.storeByte y v).readByte y' = s.readByte y' := by
  cases y <;> cases y' <;> first | rfl | exact absurd rfl h

theorem readWord_storeWord_same : (s.storeWord z u).readWord z = u := by cases z <;> rfl

theorem readWord_storeWord_other (z' : Slot16) (h : z' ≠ z) : (s.storeWord z u).readWord z' = s.readWord z' := by
  cases z <;> cases z' <;> first | rfl | exact absurd rfl h

theorem has_mark_same (m : Written) : (m.mark x).has x = true := by
  rcases x with y | z
  · cases y <;> rfl
  · cases z <;> rfl

theorem has_mark_other (m : Written) (x' : Slot) (h : x' ≠ x) : (m.mark x).has x' = m.has x' := by
  rcases x with y | z <;> rcases x' with y' | z'
  · cases y <;> cases y' <;> first | rfl | exact absurd rfl h
  · cases y <;> cases z' <;> rfl
  · cases z <;> cases y' <;> rfl
  · cases z <;> cases z' <;> first | rfl | exact absurd rfl h

/-- Setting a bit that is set changes nothing. -/
theorem mark_of_has (m : Written) (h : m.has x = true) : m.mark x = m := by
  rcases x with y | z
  · cases y <;> cases m <;> simp_all [Written.has, Written.mark]
  · cases z <;> cases m <;> simp_all [Written.has, Written.mark]

theorem has_all : Written.all.has x = true := by
  rcases x with y | z
  · cases y <;> rfl
  · cases z <;> rfl

theorem has_none : Written.none.has x = false := by
  rcases x with y | z
  · cases y <;> rfl
  · cases z <;> rfl

theorem isWritten_mark_same : (s.mark x).isWritten x = true := has_mark_same x s.written

theorem isWritten_mark_other (x' : Slot) (h : x' ≠ x) : (s.mark x).isWritten x' = s.isWritten x' :=
  has_mark_other x s.written x' h

end Sys2Proof.Machine
end

