-- ==== Sys2Proof/Laws/Ops.lean ====
section
/-! SUPPORT. What each shared operation can do, said once, and what an operation of the block does as one fault or one
response and effect (`exec_eq`), so that no proof unfolds the meanings again. -/

namespace Sys2Proof.Machine

/-! ### The frame -/

theorem transact_halted {s : State} {k : FaultKind} (result : RuleResult) (h : s.halted = some k) :
    transact s result = .fault (.halted k) := by
  simp [transact, h]

theorem transact_running {s : State} (result : RuleResult) (h : s.halted = none) :
    transact s result = .next (commit s result) := by
  simp [transact, h]

/-- An operation answers a next state exactly when the block is not halted, and then it is the committed result. -/
theorem transact_next_iff {s t : State} {result : RuleResult} :
    transact s result = .next t ↔ s.halted = none ∧ t = commit s result := by
  unfold transact
  split <;> rename_i h <;> simp [h, eq_comm]

theorem idle_next_iff {s t : State} : idle s = .next t ↔ s.halted = none ∧ t = s := by
  unfold idle
  split <;> rename_i h <;> simp [h, eq_comm]

/-! ### Slots -/

theorem writeByte_readByte_same (s : State) (y : Slot8) (v : Byte) :
    (s.writeByte y v).readByte y = kept y v := by
  simp [State.writeByte, readByte_storeByte_same]

theorem writeByte_readByte_other (s : State) (y y' : Slot8) (v : Byte) (h : y' ≠ y) :
    (s.writeByte y v).readByte y' = s.readByte y' := by
  simp [State.writeByte, readByte_storeByte_other s y v y' h]

@[simp] theorem writeByte_readWord (s : State) (y : Slot8) (v : Byte) (z : Slot16) :
    (s.writeByte y v).readWord z = s.readWord z := by
  simp [State.writeByte]

@[simp] theorem writeByte_halted (s : State) (y : Slot8) (v : Byte) : (s.writeByte y v).halted = s.halted := by
  simp [State.writeByte]

@[simp] theorem writeByte_requests (s : State) (y : Slot8) (v : Byte) : (s.writeByte y v).requests = s.requests := by
  simp [State.writeByte]

theorem writeByte_isWritten (s : State) (y : Slot8) (v : Byte) (x : Slot) :
    (s.writeByte y v).isWritten x = (decide (x = .byte y) || s.isWritten x) := by
  by_cases h : x = .byte y
  · subst h; simp [State.writeByte, isWritten_mark_same]
  · simp [State.writeByte, isWritten_mark_other _ _ _ h, h]

theorem writeWord_readWord_same (s : State) (z : Slot16) (u : Word) : (s.writeWord z u).readWord z = u := by
  simp [State.writeWord, readWord_storeWord_same]

theorem writeWord_readWord_other (s : State) (z z' : Slot16) (u : Word) (h : z' ≠ z) :
    (s.writeWord z u).readWord z' = s.readWord z' := by
  simp [State.writeWord, readWord_storeWord_other s z u z' h]

@[simp] theorem writeWord_readByte (s : State) (z : Slot16) (u : Word) (y : Slot8) :
    (s.writeWord z u).readByte y = s.readByte y := by
  simp [State.writeWord]

@[simp] theorem writeWord_halted (s : State) (z : Slot16) (u : Word) : (s.writeWord z u).halted = s.halted := by
  simp [State.writeWord]

@[simp] theorem writeWord_requests (s : State) (z : Slot16) (u : Word) : (s.writeWord z u).requests = s.requests := by
  simp [State.writeWord]

theorem writeWord_isWritten (s : State) (z : Slot16) (u : Word) (x : Slot) :
    (s.writeWord z u).isWritten x = (decide (x = .word z) || s.isWritten x) := by
  by_cases h : x = .word z
  · subst h; simp [State.writeWord, isWritten_mark_same]
  · simp [State.writeWord, isWritten_mark_other _ _ _ h, h]

/-- What a slot holds depends on the slot alone: F's view and its stored bits say the same. -/
theorem readByte_f_inj {s t : State} : s.readByte .f = t.readByte .f ↔ s.f = t.f :=
  ⟨fun h => by simpa [State.readByte, storedF_wholeF] using congrArg storedF h, fun h => by simp [State.readByte, h]⟩

/-- The two slot readings agree when the zero-extended values do. -/
theorem slotValue_byte_inj {s t : State} (y : Slot8) :
    s.slotValue (.byte y) = t.slotValue (.byte y) ↔ s.readByte y = t.readByte y := by
  constructor
  · intro h
    have := congrArg (BitVec.setWidth 8) h
    simpa [State.slotValue] using this
  · intro h; simp [State.slotValue, h]

/-! ### Operands -/

/-- The value a `p16` operand reads when every slot it covers is written. -/
def portValue (p : P16) (s : State) : Word :=
  match portTarget p with
  | .pair hi lo => compose (s.readByte hi) (s.readByte lo)
  | .slot x => s.readWord x

/-- Reading a `p16` operand: the first unwritten slot it covers faults, and otherwise its value is read (R46, R55). -/
theorem fetchPort_eq (p : P16) (s : State) :
    fetchPort p s =
      match (portSlots p).find? (fun x => !s.isWritten x) with
      | some x => .error (.uninitialised x)
      | none => .ok (portValue p s) := by
  unfold fetchPort portSlots portValue
  cases portTarget p with
  | pair hi lo =>
    simp only [State.fetchByte, List.find?]
    cases s.isWritten (.byte hi) <;> cases s.isWritten (.byte lo) <;> rfl
  | slot x =>
    simp only [State.fetchWord, List.find?]
    cases s.isWritten (.word x) <;> rfl

@[simp] theorem writePort_halted (p : P16) (w : Word) (s : State) : (writePort p w s).halted = s.halted := by
  cases p <;> simp [writePort, portTarget]

@[simp] theorem writePort_requests (p : P16) (w : Word) (s : State) : (writePort p w s).requests = s.requests := by
  cases p <;> simp [writePort, portTarget]

theorem writePort_isWritten (p : P16) (w : Word) (s : State) (x : Slot) :
    (writePort p w s).isWritten x = (decide (x ∈ portSlots p) || s.isWritten x) := by
  unfold writePort portSlots
  cases portTarget p with
  | pair hi lo =>
    simp only [writeByte_isWritten, List.mem_cons, List.not_mem_nil, or_false]
    by_cases h1 : x = .byte hi <;> by_cases h2 : x = .byte lo <;> simp [h1, h2]
  | slot z => simp [writeWord_isWritten]

/-! ### One operation, as one fault or one response and effect -/

/-- What an operation answers when it runs into no fault. -/
def responseOf (i : Instr) (s : State) : Response :=
  match i with
  | .reset | .write8 _ _ | .write16 _ _ | .setFlag _ _ => .ack
  | .read8 r => match slot8? r with
    | some y => .byte (s.readByte y)
    | none => .ack
  | .read16 p => .word (portValue p s)
  | .flag f => .bool (flagOf f (s.readByte .f))

/-- What an operation writes when it runs into no fault. -/
def effectOf (i : Instr) (s : State) : State :=
  match i with
  | .reset => s.zeroSlots
  | .read8 _ | .read16 _ | .flag _ => s
  | .write8 r v => match slot8? r with
    | some y => s.writeByte y v
    | none => s
  | .write16 p w => writePort p w s
  | .setFlag f b => s.writeByte .f (withFlag f b (s.readByte .f))

/-- Every operation is one transaction: the fault of `faultOf`, or its response and effect together (R41, R56). -/
theorem exec_eq (i : Instr) (s : State) :
    exec i s = transact s (match faultOf i s with
      | some k => .error k
      | none => .ok (responseOf i s, effectOf i s)) := by
  cases i with
  | reset => rfl
  | read8 r =>
    cases r <;> simp only [exec, execRead8, register, slot8?, faultOf, Instr.wellFormed, R8.namesRegister, readSlots,
      registerSlots, responseOf, effectOf, State.fetchByte, List.find?, Bool.false_eq_true, if_false, if_true]
    case hlMem => rfl
    all_goals (congr 1; cases s.isWritten (.byte _) <;> rfl)
  | write8 r v => cases r <;> rfl
  | read16 p =>
    simp only [exec, execRead16, fetchPort_eq, faultOf, Instr.wellFormed, readSlots, responseOf, effectOf, if_true]
    cases (portSlots p).find? (fun x => !s.isWritten x) <;> rfl
  | write16 p w => rfl
  | flag f =>
    simp only [exec, execFlag, faultOf, Instr.wellFormed, readSlots, responseOf, effectOf, State.fetchByte, List.find?,
      if_true]
    cases s.isWritten (.byte .f) <;> rfl
  | setFlag f b =>
    simp only [exec, execSetFlag, faultOf, Instr.wellFormed, readSlots, responseOf, effectOf, State.fetchByte, List.find?,
      if_true]
    cases s.isWritten (.byte .f) <;> rfl

/-- The inversion of `exec`: a next state is a fault taken, or the operation's effect with its response. -/
theorem exec_next_cases {i : Instr} {s t : State} (h : exec i s = .next t) :
    s.halted = none ∧
      ((∃ k, faultOf i s = some k ∧ t = s.raise k) ∨
        (faultOf i s = none ∧ t = (effectOf i s).respond (responseOf i s))) := by
  rw [exec_eq, transact_next_iff] at h
  obtain ⟨hs, rfl⟩ := h
  refine ⟨hs, ?_⟩
  cases hf : faultOf i s with
  | none => exact .inr ⟨rfl, rfl⟩
  | some k => exact .inl ⟨k, rfl, rfl⟩

/-- A halted block runs no operation. -/
theorem exec_halted {s : State} {k : FaultKind} (i : Instr) (h : s.halted = some k) :
    exec i s = .fault (.halted k) := by
  rw [exec_eq, transact_halted _ h]

/-- An operation of a block that is not halted answers a next state: its fault taken, or its effect with its response. -/
theorem exec_running {s : State} (i : Instr) (h : s.halted = none) :
    exec i s = .next (match faultOf i s with
      | some k => s.raise k
      | none => (effectOf i s).respond (responseOf i s)) := by
  rw [exec_eq, transact_running _ h]
  cases faultOf i s <;> rfl

theorem responseOf_ne_fault (i : Instr) (s : State) (k : FaultKind) : responseOf i s ≠ .fault k := by
  cases i with
  | read8 r => cases r <;> simp [responseOf, slot8?]
  | _ => simp [responseOf]

theorem effectOf_halted (i : Instr) (s : State) : (effectOf i s).halted = s.halted := by
  cases i with
  | write8 r v => cases r <;> simp [effectOf, slot8?]
  | _ => simp [effectOf]

theorem effectOf_requests (i : Instr) (s : State) : (effectOf i s).requests = s.requests := by
  cases i with
  | write8 r v => cases r <;> simp [effectOf, slot8?]
  | _ => simp [effectOf]

/-- The inversion of `step`: the block was not halted, and the client was idle, or its word was refused, or its operation
ran. -/
theorem step_next_cases {s t : State} (h : step s = .next t) :
    s.halted = none ∧
      ((s.requests = [] ∧ t = s) ∨
        ∃ w rest, s.requests = w :: rest ∧
          ((∃ k, decode w = .error k ∧ t = { s with requests := rest }.raise (rejectFault k)) ∨
            ∃ i, decode w = .ok i ∧ exec i { s with requests := rest } = .next t)) := by
  unfold step stepPort at h
  split at h
  · rename_i hr
    obtain ⟨hs, rfl⟩ := idle_next_iff.1 h
    exact ⟨hs, .inl ⟨hr, rfl⟩⟩
  · rename_i w rest hr
    unfold runTransaction at h
    split at h
    · rename_i i hd
      exact ⟨(exec_next_cases h).1, .inr ⟨w, rest, hr, .inr ⟨i, hd, h⟩⟩⟩
    · rename_i k hd
      obtain ⟨hs, rfl⟩ := transact_next_iff.1 h
      exact ⟨hs, .inr ⟨w, rest, hr, .inl ⟨k, hd, rfl⟩⟩⟩

end Sys2Proof.Machine
end

