-- ==== Sys2Proof/Laws/PerInstr.lean ====
section
/-! SUPPORT. Per-operation laws about the encoding. `EncodingRow`: the word of an operation selects the operation's own row
of the opcode table (spec/30_encoding.md section 4). -/

namespace Sys2Proof.Laws

/-- The word of the operation matches its row's mask and pattern. -/
def EncodingRow.Statement (i : Instr) : Prop := encode i &&& i.row.mask = i.row.pattern

theorem EncodingRow.reset : EncodingRow.Statement .reset := by
  unfold EncodingRow.Statement; decide

theorem EncodingRow.read8 (r : R8) : EncodingRow.Statement (.read8 r) := by
  unfold EncodingRow.Statement; cases r <;> decide

theorem EncodingRow.write8 (r : R8) (v : Byte) : EncodingRow.Statement (.write8 r v) := by
  unfold EncodingRow.Statement encode Instr.row packWord
  apply BitVec.eq_of_getLsbD_eq
  intro q hq
  interval_cases q <;> simp

theorem EncodingRow.read16 (p : P16) : EncodingRow.Statement (.read16 p) := by
  unfold EncodingRow.Statement; cases p <;> decide

theorem EncodingRow.write16 (p : P16) (w : Word) : EncodingRow.Statement (.write16 p w) := by
  unfold EncodingRow.Statement encode Instr.row packWord
  apply BitVec.eq_of_getLsbD_eq
  intro q hq
  interval_cases q <;> simp

theorem EncodingRow.flag (f : Flag) : EncodingRow.Statement (.flag f) := by
  unfold EncodingRow.Statement; cases f <;> decide

theorem EncodingRow.setFlag (f : Flag) (v : Bool) : EncodingRow.Statement (.setFlag f v) := by
  unfold EncodingRow.Statement; cases f <;> cases v <;> decide

end Sys2Proof.Laws
end

