-- ==== Sys2Proof/Laws/Run.lean ====
section
/-! SUPPORT. Runs of several steps: their recursion, and that `runSteps` is the host's run of the machine. -/

namespace Sys2Proof.Machine

theorem runSteps_succ (n : Nat) (s : State) :
    runSteps (n + 1) s = match step s with
      | .next t => runSteps n t
      | .fault r => .fault r
      | .refused r => .refused r := rfl

/-- A run of `m + n` steps is a run of `m` steps followed by one of `n`. -/
theorem runSteps_add (m n : Nat) (s : State) :
    runSteps (m + n) s = match runSteps m s with
      | .next t => runSteps n t
      | .fault r => .fault r
      | .refused r => .refused r := by
  induction m generalizing s with
  | zero => simp [runSteps]
  | succ m ih =>
    rw [Nat.add_right_comm, runSteps_succ, runSteps_succ]
    cases step s with
    | next t => exact ih t
    | fault r => rfl
    | refused r => rfl

/-- `runSteps` is `Host.Core.run` of the machine. -/
theorem runSteps_eq_core (n : Nat) (s : State) : runSteps n s = Host.Core.run Sys2Proof.core n s := by
  induction n generalizing s with
  | zero => rfl
  | succ n ih =>
    refine Eq.trans ?_ (Host.Core.run.eq_2 Sys2Proof.core s n).symm
    rw [runSteps_succ]
    cases ho : step s with
    | next t =>
      have hc : Sys2Proof.core.step s = .next t := ho
      rw [hc]; exact ih t
    | fault r =>
      have hc : Sys2Proof.core.step s = .fault r := ho
      rw [hc]; rfl
    | refused r =>
      have hc : Sys2Proof.core.step s = .refused r := ho
      rw [hc]; rfl

end Sys2Proof.Machine
end

