-- ==== Sys2Proof/Tests/Slice0.lean ====
section
/-! SUPPORT. Small tests on the vectors of spec/95_test_vectors.md, and a witness for the hypotheses of each obligation. -/

namespace Sys2Proof.Tests

open Sys2Proof.Machine

/-- State SX of 95_test_vectors.md section 2. -/
def sx : State :=
  { a := 0x12, f := 0xB, b := 0x34, c := 0x56, d := 0x78, e := 0x9A, h := 0xBC, l := 0xDE, sp := 0xFFFE, pc := 0x0150
    written := Written.all, halted := none, requests := [], response := none }

/-- A block at power-on whose slots happen to hold SX's values. -/
def fresh : State := { sx with written := Written.none }

/-- A state with transactions waiting. -/
def asking (s : State) (ws : List TxnWord) : State := { s with requests := ws }

/-- SX, halted by `(HL)`. -/
def stopped : State := sx.raise (.notARegister 6)

/-- The next state of an outcome, where there is one. -/
def nextOf (o : Host.Outcome State Fault Refusal) : Option State :=
  match o with
  | .next t => some t
  | .fault _ => none
  | .refused _ => none

/-- What an operation answers. -/
def answer (i : Instr) (s : State) : Option Response := (nextOf (exec i s)).bind (·.response)

/-! ### Well-formedness: an ill-formed term for each check -/

theorem test_read8_of_memory_is_ill_formed : (Instr.read8 .hlMem).wellFormed = false := by decide
theorem test_write8_of_memory_is_ill_formed : (Instr.write8 .hlMem 0x55).wellFormed = false := by decide
theorem test_read8_of_a_is_well_formed : (Instr.read8 .a).wellFormed = true := by decide

/-! ### Decoding: words of 95_test_vectors.md sections 2.1 to 2.5, laid out bit by bit as R37 has them -/

theorem test_decode_reset : decodeTableWord 32 0b00000000000000000000000000000000 = some .reset := by decide
theorem test_decode_read8 : decodeTableWord 32 0b00000000000000000000000000111001 = some (.read8 .a) := by decide
theorem test_decode_read8_memory : decodeTableWord 32 0b00000000000000000000000000110001 = some (.read8 .hlMem) := by decide
theorem test_decode_write8 :
    decodeTableWord 32 0b00000000000000001100110100101010 = some (.write8 .l 0xCD) := by decide
theorem test_decode_read16 : decodeTableWord 32 0b00000000000000000000000000101011 = some (.read16 .pc) := by decide
theorem test_decode_write16 :
    decodeTableWord 32 0b00000000101111101110111100001100 = some (.write16 .de 0xBEEF) := by decide
theorem test_decode_flag : decodeTableWord 32 0b00000000000000000000000000110101 = some (.flag .n) := by decide
theorem test_decode_set_flag : decodeTableWord 32 0b00000000000000000000000001100110 = some (.setFlag .c true) := by decide

/-- Section 2.5: every reserved word of the table is refused. -/
theorem test_decode_reserved :
    [0x00000007, 0x00000008, 0x00000100, 0x00000081, 0x01000001, 0x00000041, 0x00010002, 0x00000033, 0x0012343C,
      0x00123444, 0x00000005, 0x0000005E, 0x0000017E].map (decodeTableWord 32) = List.replicate 13 none := by decide

/-- The words of section 2, from the operations. -/
theorem test_encode :
    [encode (.write8 .h 0x01), encode (.write16 .af 0xAB5A), encode (.setFlag .z true), encode (.read16 .sp)] =
      [0x00000122, 0x00AB5A24, 0x0000007E, 0x0000001B] := by decide

/-! ### Text (R40) -/

theorem test_assemble_write8 : assemble "write8 L, 0xCD" = some (.write8 .l 0xCD) := by decide
theorem test_assemble_oversize : assemble "write8 B, 256" = none := by decide

/-! ### Each operation on SX (sections 2.1 to 2.4, 2.6) -/

theorem test_reset_zeroes : (nextOf (exec .reset sx)).map (fun t => (t.a, t.readByte .f, t.sp)) = some (0, 0, 0) := by decide
theorem test_reset_at_power_on : (nextOf (exec .reset fresh)).map (·.written) = some Written.all := by decide
theorem test_read8_h : answer (.read8 .h) sx = some (.byte 0xBC) := by decide
theorem test_read8_memory : (nextOf (exec (.read8 .hlMem) sx)).map (·.halted) = some (some (.notARegister 6)) := by decide
theorem test_write8_l : (nextOf (exec (.write8 .l 0xCD) sx)).bind (answer (.read16 .hl)) = some (.word 0xBCCD) := by decide
theorem test_write8_memory : answer (.write8 .hlMem 0x55) sx = some (.fault (.notARegister 6)) := by decide
theorem test_read16_af : answer (.read16 .af) sx = some (.word 0x12B0) := by decide
theorem test_read16_low_half_unwritten :
    answer (.read16 .hl) (fresh.writeByte .h 0) = some (.fault (.uninitialised (.byte .l))) := by decide
theorem test_write16_af :
    (nextOf (exec (.write16 .af 0xAB5A) sx)).map (fun t => (t.a, t.readByte .f)) = some (0xAB, 0x50) := by decide
theorem test_write16_sp_odd : (nextOf (exec (.write16 .sp 0x0001) sx)).map (·.sp) = some 0x0001 := by decide
theorem test_flag_n : answer (.flag .n) sx = some (.bool false) := by decide
theorem test_flag_c : answer (.flag .c) sx = some (.bool true) := by decide
theorem test_set_flag_n : (nextOf (exec (.setFlag .n true) sx)).map (·.readByte .f) = some 0xF0 := by decide
theorem test_set_flag_at_power_on :
    answer (.setFlag .z true) (fresh.writeByte .a 0) = some (.fault (.uninitialised (.byte .f))) := by decide

/-! ### The step, and the host's two functions -/

theorem test_step_reserved : (nextOf (step (asking sx [0x00000007]))).map (·.halted) = some (some (.reserved 0x00000007)) := by
  decide
theorem test_step_halted_takes_no_reset : nextOf (step (asking stopped [0x00000000])) = none := by decide
theorem test_fetch_word_runs_first :
    (nextOf (step (State.reset.withFetchWord 32 0x00BEEF0C))).map (fun t => (t.d, t.e)) = some (0xBE, 0xEF) := by decide
theorem test_short_table_word_is_zero_filled : decodeTableWord 8 0xFF39 = some (.read8 .a) := by decide

/-! ### Witnesses: the hypotheses of each obligation are met -/

theorem witness_EncodeOfDecode : decode 0x00BEEF0C = .ok (.write16 .de 0xBEEF) := rfl

/-- Each way of being reserved, and a word that is not. -/
theorem witness_ReservedWordsAreExactlyTheRejected :
    ReservedWord 0x00000007 ∧ ReservedWord 0x00000008 ∧ ReservedWord 0x80000001 ∧ ReservedWord 0x00000033 ∧
    ReservedWord 0x0000003C ∧ ReservedWord 0x0000001D ∧ ReservedWord 0x0000005E ∧
    ¬ReservedWord 0x00000031 ∧ ¬ReservedWord 0x0000002B ∧ ¬ReservedWord 0x00000025 := by
  refine ⟨?_, ?_, ?_, ?_, ?_, ?_, ?_, ?_, ?_, ?_⟩ <;> decide

theorem witness_OpcodeRowsClassifyWords :
    decode 0x0000007E = .ok (.setFlag .z true) ∧ ∀ r ∈ opcodeTable, r.selects 0x00000007 = false :=
  ⟨rfl, by decide⟩

theorem witness_OversizeImmediateIsAssemblyError :
    number? "256".toList = some 256 ∧ 256 ≤ 256 ∧ number? "0x10000".toList = some 65536 ∧ 65536 ≤ 65536 := by decide

theorem witness_StepRunsDecodedOperation :
    (asking sx [0x0012FF24, 0x00000039]).requests = [0x0012FF24, 0x00000039] ∧
      decode 0x0012FF24 = .ok (.write16 .af 0x12FF) ∧ ∃ t, step (asking sx [0x0012FF24, 0x00000039]) = .next t :=
  ⟨rfl, rfl, _, rfl⟩

theorem witness_EmptyPortChangesNothing :
    sx.requests = [] ∧ sx.halted = none ∧ stopped.requests = [] ∧ stopped.halted = some (.notARegister 6) := by decide

theorem witness_StepFrame :
    (asking sx [0x00000007]).requests = [0x00000007] ∧ (asking sx [0x00000007]).halted = none ∧ ReservedWord 0x00000007 ∧
    (asking sx [0x00000031]).requests = [0x00000031] ∧ ¬ReservedWord 0x00000031 ∧
    (asking stopped [0x00000000]).requests = [0x00000000] ∧ (asking stopped [0x00000000]).halted = some (.notARegister 6) := by
  decide

theorem witness_FaultHaltsTheBlockForGood :
    ∃ t, step (asking sx [0x00000031, 0x00000000]) = .next t ∧ t.halted = some (.notARegister 6) := ⟨_, rfl, rfl⟩

/-- One completion of each kind of response, and a fault. -/
theorem witness_ResponsesHaveTheirKind :
    (∃ t, exec .reset sx = .next t) ∧ (∃ t, exec (.read8 .a) sx = .next t) ∧ (∃ t, exec (.read16 .pc) sx = .next t) ∧
    (∃ t, exec (.flag .z) sx = .next t) ∧ ∃ t, exec (.read8 .a) fresh = .next t ∧ t.halted ≠ none :=
  ⟨⟨_, rfl⟩, ⟨_, rfl⟩, ⟨_, rfl⟩, ⟨_, rfl⟩, _, rfl, by decide⟩

theorem witness_ResetZeroesEverySlot : sx.halted = none ∧ stopped.halted = some (.notARegister 6) := by decide

theorem witness_StateResetIsTheStateAfterReset : fresh.halted = none := by decide

/-- The first and the last row of the table, in a written and in an unwritten block. -/
theorem witness_Read8ReturnsItsRegister :
    sx.halted = none ∧ (R8.b, Slot8.b) ∈ registerTable ∧ sx.isWritten (.byte .b) = true ∧ (R8.a, Slot8.a) ∈ registerTable ∧
    sx.isWritten (.byte .a) = true ∧ fresh.halted = none ∧ fresh.isWritten (.byte .b) = false ∧
    fresh.isWritten (.byte .a) = false := by decide

theorem witness_Write8OverwritesItsRegister : fresh.halted = none := by decide

/-- Each clause: both halves written, the high half unwritten, the low half unwritten, SP and PC written and not. -/
theorem witness_Read16ReturnsItsView :
    sx.halted = none ∧ (P16.af, Slot8.a, Slot8.f) ∈ pairTable ∧ sx.isWritten (.byte .a) = true ∧
    sx.isWritten (.byte .f) = true ∧ fresh.halted = none ∧ fresh.isWritten (.byte .a) = false ∧
    (fresh.writeByte .a 1).halted = none ∧ (fresh.writeByte .a 1).isWritten (.byte .a) = true ∧
    (fresh.writeByte .a 1).isWritten (.byte .f) = false ∧ (P16.pc, Slot16.pc) ∈ wordTable ∧
    sx.isWritten (.word .pc) = true ∧ fresh.isWritten (.word .pc) = false := by decide

theorem witness_Write16WritesItsView : fresh.halted = none := by decide

theorem witness_FlagReadsOneBit :
    sx.halted = none ∧ (Flag.z, 7) ∈ flagTable ∧ (Flag.c, 4) ∈ flagTable ∧ sx.isWritten (.byte .f) = true ∧
    fresh.halted = none ∧ fresh.isWritten (.byte .f) = false := by decide

theorem witness_SetFlagWritesOneBit :
    sx.halted = none ∧ (Flag.z, 7) ∈ flagTable ∧ (Flag.c, 4) ∈ flagTable ∧ sx.isWritten (.byte .f) = true ∧
    fresh.halted = none ∧ fresh.isWritten (.byte .f) = false := by decide

/-- Every constructor of Instr, in the smallest block that lets it complete. -/
theorem witness_EveryOperationCompletes :
    fresh.halted = none ∧ sx.halted = none ∧
    (∀ i ∈ [Instr.reset, .write8 .a 0xFF, .write16 .pc 0xFFFF],
      i.wellFormed = true ∧ ∀ x ∈ readSlots i, fresh.isWritten x = true) ∧
    (∀ i ∈ [Instr.read8 .a, .read16 .af, .read16 .pc, .flag .z, .setFlag .c true],
      i.wellFormed = true ∧ ∀ x ∈ readSlots i, sx.isWritten x = true) := by decide

/-- The frame clause on a slot just outside the write, and the two states that agree on the read slot alone. -/
theorem witness_OperationsReachOnlyTheirSlots :
    (∃ t, exec (.write16 .af 0x12FF) sx = .next t) ∧ Slot.byte .b ∉ writeSlots (.write16 .af 0x12FF) ∧
    (∀ x ∈ readSlots (.setFlag .n true), SameSlot x sx { sx with a := 0xFF, sp := 0 }) ∧
    (∃ t, exec (.setFlag .n true) sx = .next t ∧ t.halted = none) ∧
    ∃ t, exec (.setFlag .n true) { sx with a := 0xFF, sp := 0 } = .next t :=
  ⟨⟨_, rfl⟩, by decide, by decide, ⟨_, rfl, rfl⟩, _, rfl⟩

theorem witness_LowNibbleOfFIsAlwaysZero :
    (∃ t, exec .reset sx = .next t) ∧ (∃ t, exec (.write16 .af 0x000F) sx = .next t) ∧
    (Flag.z, 7) ∈ flagTable ∧ (∃ t, exec (.setFlag .z false) sx = .next t ∧ t.halted = none) ∧
    (∃ t, exec (.write8 .a 0xFF) sx = .next t) ∧
    ∃ t, exec (.read16 .af) sx = .next t ∧ t.response = some (.word 0x12B0) :=
  ⟨⟨_, rfl⟩, ⟨_, rfl⟩, by decide, ⟨_, rfl, rfl⟩, ⟨_, rfl⟩, _, rfl, rfl⟩

theorem witness_OnlyThreeOperationsChangeF :
    (∃ t, exec (.setFlag .n true) sx = .next t ∧ t.f ≠ sx.f) ∧
    ∃ t, exec (.write16 .af 0) fresh = .next t ∧ t.written.f ≠ fresh.written.f :=
  ⟨⟨_, rfl, by decide⟩, _, rfl, by decide⟩

theorem witness_OnlyWrite16AndResetChangeSpAndPc :
    (∃ t, step (asking sx [0x0000011C]) = .next t ∧ t.sp ≠ sx.sp) ∧
    (∃ t, step (asking sx [0x00FFFF2C]) = .next t ∧ t.pc ≠ sx.pc) ∧ sx.halted = none :=
  ⟨⟨_, rfl, by decide⟩, ⟨_, rfl, by decide⟩, rfl⟩

theorem witness_PairViewsAreBigEndian :
    (P16.af, Slot8.a, Slot8.f) ∈ pairTable ∧ (∃ t, exec (.write16 .af 0x12FF) sx = .next t) ∧
    (P16.hl, Slot8.h, Slot8.l) ∈ pairTable ∧ (R8.h, Slot8.h) ∈ registerTable ∧ (R8.l, Slot8.l) ∈ registerTable ∧
    (∃ t, exec (.write8 .h 0x01) sx = .next t) ∧ (∃ t, exec (.write8 .l 0xCD) sx = .next t) ∧
    (∃ t, exec (.read16 .hl) sx = .next t ∧ t.response = some (.word 0xBCDE)) ∧ ∃ t, exec (.read8 .h) sx = .next t :=
  ⟨by decide, ⟨_, rfl⟩, by decide, by decide, by decide, ⟨_, rfl⟩, ⟨_, rfl⟩, ⟨_, rfl, rfl⟩, _, rfl⟩

theorem witness_WriteHalvesThenReadPair :
    fresh.halted = none ∧ (P16.hl, Slot8.h, Slot8.l) ∈ pairTable ∧ (R8.h, Slot8.h) ∈ registerTable ∧
    (R8.l, Slot8.l) ∈ registerTable := by decide

theorem witness_ReadsArePureAndWritesIdempotent :
    (∃ t, exec (.flag .c) sx = .next t ∧ t.halted = none) ∧ (∃ t, exec (.setFlag .n true) sx = .next t ∧ t.halted = none) ∧
    ∃ t, exec (.write16 .af 0x12FF) fresh = .next t ∧ t.halted = none :=
  ⟨⟨_, rfl, rfl⟩, ⟨_, rfl, rfl⟩, _, rfl, rfl⟩

theorem witness_DomainRunsNeverHalt :
    AllWritten (asking sx [0x00000039, 0x0012FF24]) ∧ (asking sx [0x00000039, 0x0012FF24]).halted = none ∧
    ∀ w ∈ (asking sx [0x00000039, 0x0012FF24]).requests, ∃ i, decode w = .ok i ∧ i.wellFormed = true := by
  refine ⟨has_all, rfl, ?_⟩
  intro w hw
  rcases List.mem_cons.1 hw with rfl | hw
  · exact ⟨.read8 .a, rfl, rfl⟩
  · rcases List.mem_cons.1 hw with rfl | hw
    · exact ⟨.write16 .af 0x12FF, rfl, rfl⟩
    · exact absurd hw List.not_mem_nil

/-- Each rank of the priority: halted, Reserved, NotARegister, Uninitialised, no fault. -/
theorem witness_FaultsFollowTheirPriority :
    (asking stopped [0x00000000]).halted = some (.notARegister 6) ∧
    (asking fresh [0x00000033]).halted = none ∧ ReservedWord 0x00000033 ∧ decode 0x00000031 = .ok (.read8 .hlMem) ∧
    decode 0x00005532 = .ok (.write8 .hlMem 0x55) ∧ decode 0x00000013 = .ok (.read16 .hl) ∧
    decode 0x00000000 = .ok .reset :=
  ⟨rfl, rfl, by decide, rfl, rfl, rfl, rfl⟩

theorem witness_PowerOnReadsFaultUntilReset :
    AtPowerOn fresh ∧ (Instr.setFlag .z true).wellFormed = true ∧ readSlots (.setFlag .z true) = [.byte .f] ∧
    readSlots (.read16 .hl) = [.byte .h, .byte .l] := by decide

theorem witness_StepKeepsPortAgreement :
    PortAgrees (asking State.reset [0x00000031]) ∧ ∃ t, step (asking State.reset [0x00000031]) = .next t :=
  ⟨fun _ => ⟨fun h => (nomatch h), fun h => (nomatch h)⟩, _, rfl⟩

/-- A bit already set, and a bit the operation sets. -/
theorem witness_WrittenBitsOnlyRise :
    (∃ t, step (asking sx [0x00000031]) = .next t) ∧ (asking sx [0x00000031]).isWritten (.word .pc) = true ∧
    ∃ t, step (asking fresh [0x00001102]) = .next t ∧ (asking fresh [0x00001102]).isWritten (.byte .b) = false ∧
      t.isWritten (.byte .b) = true :=
  ⟨⟨_, rfl⟩, by decide, _, rfl, by decide, by decide⟩

theorem witness_UntouchedSlotsKeepTheirValueOverAnyRun :
    (∃ t, runSteps 2 (asking sx [0x0000FF3A, 0x00000076]) = .next t) ∧
    ∀ w ∈ (asking sx [0x0000FF3A, 0x00000076]).requests.take 2, ∀ i, decode w = .ok i → Slot.word .sp ∉ writeSlots i := by
  refine ⟨⟨_, rfl⟩, ?_⟩
  intro w hw i hi
  rcases List.mem_cons.1 hw with rfl | hw
  · obtain rfl : Instr.write8 .a 0xFF = i := Except.ok.inj hi
    decide
  · rcases List.mem_cons.1 hw with rfl | hw
    · obtain rfl : Instr.setFlag .n true = i := Except.ok.inj hi
      decide
    · exact absurd hw List.not_mem_nil

theorem witness_Read16AnswersTheLastWrite16 :
    fresh.halted = none ∧
    (asking fresh (encode (.write16 .af 0x12FF) :: [Instr.write8 .b 1].map encode ++ [encode (.read16 .af)])).requests =
      encode (.write16 .af 0x12FF) :: [Instr.write8 .b 1].map encode ++ [encode (.read16 .af)] ∧
    (∀ i ∈ [Instr.write8 .b 1], ∀ x ∈ portSlots .af, x ∉ writeSlots i) ∧
    ∃ m, runSteps ([Instr.write8 .b 1].length + 1)
      (asking fresh (encode (.write16 .af 0x12FF) :: [Instr.write8 .b 1].map encode ++ [encode (.read16 .af)])) = .next m ∧
      m.halted = none :=
  ⟨rfl, rfl, by decide, _, rfl, rfl⟩

theorem witness_Read8AnswersTheLastWrite8 :
    fresh.halted = none ∧ (R8.l, Slot8.l) ∈ registerTable ∧
    (asking fresh (encode (.write8 .l 0xCD) :: [Instr.write8 .h 1].map encode ++ [encode (.read8 .l)])).requests =
      encode (.write8 .l 0xCD) :: [Instr.write8 .h 1].map encode ++ [encode (.read8 .l)] ∧
    (∀ i ∈ [Instr.write8 .h 1], Slot.byte .l ∉ writeSlots i) ∧
    ∃ m, runSteps ([Instr.write8 .h 1].length + 1)
      (asking fresh (encode (.write8 .l 0xCD) :: [Instr.write8 .h 1].map encode ++ [encode (.read8 .l)])) = .next m ∧
      m.halted = none :=
  ⟨rfl, by decide, rfl, by decide, _, rfl, rfl⟩

end Sys2Proof.Tests
end

section
/-! SUPPORT. What a slot holds after each write, which slots an operation can change, and what its outcome depends on:
the rules behind the access matrix, F's low nibble, SP and PC, and the pair views (spec/10_state.md R12 to R16, R21). -/

namespace Sys2Proof.Machine

/-! ### The tables of Safety.lean say what the operands resolve to -/

theorem mem_registerTable_iff {r : R8} {x : Slot8} : (r, x) ∈ registerTable ↔ slot8? r = some x := by
  cases r <;> simp [registerTable, slot8?, eq_comm]

theorem mem_pairTable_iff {p : P16} {hi lo : Slot8} : (p, hi, lo) ∈ pairTable ↔ portTarget p = .pair hi lo := by
  cases p <;> simp [pairTable, portTarget, eq_comm]

theorem mem_wordTable_iff {p : P16} {z : Slot16} : (p, z) ∈ wordTable ↔ portTarget p = .slot z := by
  cases p <;> simp [wordTable, portTarget, eq_comm]

theorem pos_of_mem_flagTable {f : Flag} {pos : Nat} (h : (f, pos) ∈ flagTable) : f.pos = pos := by
  cases f <;> simp_all [flagTable, Flag.pos]

theorem registerSlots_of_mem {r : R8} {x : Slot8} (h : (r, x) ∈ registerTable) : registerSlots r = [.byte x] := by
  simp [registerSlots, mem_registerTable_iff.1 h]

theorem portSlots_of_mem_pairTable {p : P16} {hi lo : Slot8} (h : (p, hi, lo) ∈ pairTable) :
    portSlots p = [.byte hi, .byte lo] := by
  simp [portSlots, mem_pairTable_iff.1 h]

theorem portSlots_of_mem_wordTable {p : P16} {z : Slot16} (h : (p, z) ∈ wordTable) : portSlots p = [.word z] := by
  simp [portSlots, mem_wordTable_iff.1 h]

theorem mem_allSlots (x : Slot) : x ∈ allSlots := by
  rcases x with y | z
  · cases y <;> decide
  · cases z <;> decide

/-- F has no `r8` code (R29). -/
theorem ne_f_of_mem_registerTable {r : R8} {x : Slot8} (h : (r, x) ∈ registerTable) : x ≠ .f := by
  rintro rfl
  cases r <;> simp [registerTable] at h

theorem namesRegister_of_mem_registerTable {r : R8} {x : Slot8} (h : (r, x) ∈ registerTable) :
    r.namesRegister = true := by
  cases r
  case hlMem => simp [registerTable] at h
  all_goals rfl

/-- The halves of a pair are two slots, and F is a half only as the low one of AF (R12). -/
theorem pair_halves {p : P16} {hi lo : Slot8} (h : (p, hi, lo) ∈ pairTable) :
    hi ≠ lo ∧ hi ≠ .f ∧ (lo = .f ↔ p = .af) := by
  rw [mem_pairTable_iff] at h
  cases p <;> cases h <;> decide

/-- The 16-bit slots lie outside every `r8` operand (R21). -/
theorem word_notMem_registerSlots (r : R8) (z : Slot16) : Slot.word z ∉ registerSlots r := by
  cases h : slot8? r <;> simp [registerSlots, h]

/-- F lies outside every `r8` operand (R15, R29). -/
theorem f_notMem_registerSlots (r : R8) : Slot.byte .f ∉ registerSlots r := by
  cases r <;> decide

/-! ### Two states that agree on a slot, and the updates of one state -/

theorem sameSlot_refl (x : Slot) (s : State) : SameSlot x s s := ⟨rfl, rfl⟩

theorem sameSlot_symm {x : Slot} {s t : State} (h : SameSlot x s t) : SameSlot x t s := ⟨h.1.symm, h.2.symm⟩

theorem sameSlot_trans {x : Slot} {s t u : State} (h : SameSlot x s t) (g : SameSlot x t u) : SameSlot x s u :=
  ⟨h.1.trans g.1, h.2.trans g.2⟩

theorem sameSlot_byte_iff {y : Slot8} {s t : State} :
    SameSlot (.byte y) s t ↔ s.readByte y = t.readByte y ∧ s.isWritten (.byte y) = t.isWritten (.byte y) :=
  and_congr_left' (slotValue_byte_inj y)

theorem sameSlot_word_iff {z : Slot16} {s t : State} :
    SameSlot (.word z) s t ↔ s.readWord z = t.readWord z ∧ s.isWritten (.word z) = t.isWritten (.word z) := Iff.rfl

theorem sameSlot_raise (x : Slot) (s : State) (k : FaultKind) : SameSlot x s (s.raise k) := by
  cases x <;> exact ⟨rfl, rfl⟩

theorem sameSlot_respond (x : Slot) (s : State) (r : Response) : SameSlot x s (s.respond r) := by
  cases x <;> exact ⟨rfl, rfl⟩

/-- Dropping the oldest transaction touches no slot. -/
theorem sameSlot_requests (x : Slot) (s : State) (ws : List TxnWord) : SameSlot x s { s with requests := ws } := by
  rcases x with y | z
  · cases y <;> exact ⟨rfl, rfl⟩
  · cases z <;> exact ⟨rfl, rfl⟩

theorem sameSlot_writeByte {x : Slot} {y : Slot8} (h : x ≠ .byte y) (s : State) (v : Byte) :
    SameSlot x s (s.writeByte y v) := by
  rcases x with y' | z
  · have hy : y' ≠ y := fun e => h (congrArg Slot.byte e)
    simp [sameSlot_byte_iff, writeByte_readByte_other _ _ _ _ hy, writeByte_isWritten, hy]
  · simp [sameSlot_word_iff, writeByte_isWritten]

theorem sameSlot_writeWord {x : Slot} {z : Slot16} (h : x ≠ .word z) (s : State) (u : Word) :
    SameSlot x s (s.writeWord z u) := by
  rcases x with y | z'
  · simp [sameSlot_byte_iff, writeWord_isWritten]
  · have hz : z' ≠ z := fun e => h (congrArg Slot.word e)
    simp [sameSlot_word_iff, writeWord_readWord_other _ _ _ _ hz, writeWord_isWritten, hz]

theorem sameSlot_writePort {x : Slot} {p : P16} (h : x ∉ portSlots p) (s : State) (w : Word) :
    SameSlot x s (writePort p w s) := by
  unfold portSlots at h
  unfold writePort
  cases ht : portTarget p with
  | pair hi lo =>
    simp only [ht, List.mem_cons, List.not_mem_nil, or_false, not_or] at h
    exact sameSlot_trans (sameSlot_writeByte h.1 s _) (sameSlot_writeByte h.2 _ _)
  | slot z =>
    simp only [ht, List.mem_singleton] at h
    exact sameSlot_writeWord h s w

/-! ### The same write in two states -/

theorem writeByte_sameSlot_self (y : Slot8) (v : Byte) (s s' : State) :
    SameSlot (.byte y) (s.writeByte y v) (s'.writeByte y v) := by
  simp [sameSlot_byte_iff, writeByte_readByte_same, writeByte_isWritten]

theorem writeWord_sameSlot_self (z : Slot16) (u : Word) (s s' : State) :
    SameSlot (.word z) (s.writeWord z u) (s'.writeWord z u) := by
  simp [sameSlot_word_iff, writeWord_readWord_same, writeWord_isWritten]

/-- Writing one byte to both of two states keeps their agreement on every slot. -/
theorem writeByte_sameSlot {x : Slot} {s s' : State} (h : SameSlot x s s') (y : Slot8) (v : Byte) :
    SameSlot x (s.writeByte y v) (s'.writeByte y v) := by
  by_cases hx : x = .byte y
  · subst hx
    exact writeByte_sameSlot_self y v s s'
  · exact sameSlot_trans (sameSlot_symm (sameSlot_writeByte hx s v)) (sameSlot_trans h (sameSlot_writeByte hx s' v))

theorem writePort_sameSlot {x : Slot} {p : P16} (h : x ∈ portSlots p) (w : Word) (s s' : State) :
    SameSlot x (writePort p w s) (writePort p w s') := by
  unfold portSlots at h
  unfold writePort
  cases ht : portTarget p with
  | pair hi lo =>
    simp only [ht, List.mem_cons, List.not_mem_nil, or_false] at h
    rcases h with rfl | rfl
    · exact writeByte_sameSlot (writeByte_sameSlot_self hi _ s s') lo _
    · exact writeByte_sameSlot_self lo _ _ _
  | slot z =>
    simp only [ht, List.mem_singleton] at h
    subst h
    exact writeWord_sameSlot_self z w s s'

theorem zeroSlots_sameSlot (x : Slot) (s s' : State) : SameSlot x s.zeroSlots s'.zeroSlots := by
  rcases x with y | z
  · cases y <;> exact ⟨rfl, rfl⟩
  · cases z <;> exact ⟨rfl, rfl⟩

/-! ### The operations: what they leave unchanged (the `w` cells of R16) -/

theorem effectOf_sameSlot {i : Instr} {x : Slot} (h : x ∉ writeSlots i) (s : State) : SameSlot x s (effectOf i s) := by
  cases i with
  | reset => exact absurd (mem_allSlots x) h
  | read8 r | read16 p | flag f => exact sameSlot_refl x s
  | write8 r v =>
    cases hr : slot8? r with
    | none => simpa only [effectOf, hr] using sameSlot_refl x s
    | some y =>
      have hx : x ≠ .byte y := by simpa [writeSlots, registerSlots, hr] using h
      simpa [effectOf, hr] using sameSlot_writeByte hx s v
  | write16 p w => exact sameSlot_writePort h s w
  | setFlag f b => exact sameSlot_writeByte (by simpa [writeSlots] using h) s _

/-- A slot outside the written cells keeps its value and its written bit, whether the operation faults or completes. -/
theorem exec_sameSlot {i : Instr} {s t : State} {x : Slot} (h : exec i s = .next t) (hx : x ∉ writeSlots i) :
    SameSlot x s t := by
  obtain ⟨-, ⟨k, -, rfl⟩ | ⟨-, rfl⟩⟩ := exec_next_cases h
  · exact sameSlot_raise x s k
  · exact sameSlot_trans (effectOf_sameSlot hx s) (sameSlot_respond x _ _)

/-! ### The operations: what they depend on (the `r` cells of R16) -/

section Agreement

variable {i : Instr} {s s' : State}

theorem faultOf_congr (h : ∀ x ∈ readSlots i, SameSlot x s s') : faultOf i s = faultOf i s' := by
  have hf : (readSlots i).find? (fun x => !s.isWritten x) = (readSlots i).find? (fun x => !s'.isWritten x) :=
    List.find?_congr fun x hx => congrArg (!·) (h x hx).2
  unfold faultOf
  rw [hf]

theorem portValue_congr {p : P16} (h : ∀ x ∈ portSlots p, SameSlot x s s') : portValue p s = portValue p s' := by
  unfold portSlots at h
  unfold portValue
  cases ht : portTarget p with
  | pair hi lo =>
    simp only [ht, List.forall_mem_cons, sameSlot_byte_iff] at h
    obtain ⟨⟨hhi, -⟩, ⟨hlo, -⟩, -⟩ := h
    simp only [hhi, hlo]
  | slot z =>
    simp only [ht, List.forall_mem_singleton, sameSlot_word_iff] at h
    exact h.1

theorem readByte_f_congr (h : ∀ x ∈ [Slot.byte .f], SameSlot x s s') : s.readByte .f = s'.readByte .f :=
  (sameSlot_byte_iff.1 (h _ List.mem_cons_self)).1

theorem responseOf_congr (h : ∀ x ∈ readSlots i, SameSlot x s s') : responseOf i s = responseOf i s' := by
  cases i with
  | reset | write8 r v | write16 p w | setFlag f b => rfl
  | read8 r =>
    cases hr : slot8? r with
    | none => simp only [responseOf, hr]
    | some y =>
      have hy : s.readByte y = s'.readByte y :=
        (sameSlot_byte_iff.1 (h _ (by simp [readSlots, registerSlots, hr]))).1
      simp only [responseOf, hr, hy]
  | read16 p => exact congrArg Response.word (portValue_congr h)
  | flag f => exact congrArg (Response.bool <| flagOf f ·) (readByte_f_congr h)

theorem effectOf_congr (h : ∀ x ∈ readSlots i, SameSlot x s s') {x : Slot} (hx : x ∈ writeSlots i) :
    SameSlot x (effectOf i s) (effectOf i s') := by
  cases i with
  | reset => exact zeroSlots_sameSlot x s s'
  | read8 r | read16 p | flag f => exact absurd hx List.not_mem_nil
  | write8 r v =>
    cases hr : slot8? r with
    | none => simp [writeSlots, registerSlots, hr] at hx
    | some y =>
      obtain rfl : x = .byte y := by simpa [writeSlots, registerSlots, hr] using hx
      simpa only [effectOf, hr] using writeByte_sameSlot_self y v s s'
  | write16 p w => exact writePort_sameSlot hx w s s'
  | setFlag f b =>
    obtain rfl : x = .byte .f := List.mem_singleton.1 hx
    simp only [effectOf, readByte_f_congr h]
    exact writeByte_sameSlot_self .f _ s s'

/-- Two runs of an operation that agree on its read cells end alike: with one response and one fault, and where they
complete, with the same in the written cells. -/
theorem exec_congr {t t' : State} (h : ∀ x ∈ readSlots i, SameSlot x s s') (ht : exec i s = .next t)
    (ht' : exec i s' = .next t') :
    t.response = t'.response ∧ t.halted = t'.halted ∧ (t.halted = none → ∀ x ∈ writeSlots i, SameSlot x t t') := by
  have hf := faultOf_congr h
  obtain ⟨hs, ⟨k, hk, rfl⟩ | ⟨hk, rfl⟩⟩ := exec_next_cases ht <;>
    obtain ⟨hs', ⟨k', hk', rfl⟩ | ⟨hk', rfl⟩⟩ := exec_next_cases ht'
  · obtain rfl : k = k' := by simpa [hk, hk'] using hf
    simp
  · simp [hk, hk'] at hf
  · simp [hk, hk'] at hf
  · refine ⟨by simp [responseOf_congr h], by simp [effectOf_halted, hs, hs'], fun _ x hx => ?_⟩
    exact sameSlot_trans (sameSlot_symm (sameSlot_respond x _ _))
      (sameSlot_trans (effectOf_congr h hx) (sameSlot_respond x _ _))

end Agreement

/-- Settles O25: the cells by the operand tables, the frame by `exec_sameSlot`, and the two runs by `exec_congr`. -/
theorem operationsReachOnlyTheirSlots : Obligations.OperationsReachOnlyTheirSlots := by
  refine ⟨⟨?_, ?_, ?_, fun _ _ => ⟨rfl, rfl, rfl, rfl⟩, rfl, mem_allSlots, rfl, fun _ => rfl⟩,
    fun _ _ _ _ h hx => exec_sameSlot h hx, fun _ _ _ _ _ h ht ht' => exec_congr h ht ht'⟩
  · exact fun _ _ _ h => ⟨registerSlots_of_mem h, rfl, rfl, registerSlots_of_mem h⟩
  · exact fun _ _ _ _ h => ⟨portSlots_of_mem_pairTable h, rfl, rfl, portSlots_of_mem_pairTable h⟩
  · exact fun _ _ _ h => ⟨portSlots_of_mem_wordTable h, rfl, rfl, portSlots_of_mem_wordTable h⟩

/-! ### Operations that complete -/

section Completion

variable {i : Instr} {s t : State}

theorem exec_of_no_fault (h : exec i s = .next t) (hf : faultOf i s = none) :
    t = (effectOf i s).respond (responseOf i s) := by
  obtain ⟨-, ⟨k, hk, -⟩ | ⟨-, rfl⟩⟩ := exec_next_cases h
  · simp [hf] at hk
  · rfl

theorem exec_of_not_halted (h : exec i s = .next t) (ht : t.halted = none) :
    t = (effectOf i s).respond (responseOf i s) := by
  obtain ⟨-, ⟨k, -, rfl⟩ | ⟨-, rfl⟩⟩ := exec_next_cases h
  · simp at ht
  · rfl

theorem exec_of_response {r : Response} (h : exec i s = .next t) (ht : t.response = some r)
    (hr : ∀ k, r ≠ .fault k) : r = responseOf i s := by
  obtain ⟨-, ⟨k, -, rfl⟩ | ⟨-, rfl⟩⟩ := exec_next_cases h
  · exact absurd (Option.some.inj ht).symm (hr k)
  · exact (Option.some.inj ht).symm

end Completion

theorem exec_reset_next {s t : State} (h : exec .reset s = .next t) : t = s.zeroSlots.respond .ack :=
  exec_of_no_fault h rfl

theorem exec_write16_next {p : P16} {w : Word} {s t : State} (h : exec (.write16 p w) s = .next t) :
    t = (writePort p w s).respond .ack :=
  exec_of_no_fault h rfl

theorem exec_write16_running {s : State} (h : s.halted = none) (p : P16) (w : Word) :
    exec (.write16 p w) s = .next ((writePort p w s).respond .ack) :=
  exec_running (.write16 p w) h

theorem exec_read16_word {p : P16} {s t : State} {v : Word} (h : exec (.read16 p) s = .next t)
    (ht : t.response = some (.word v)) : v = portValue p s := by
  simpa [responseOf] using exec_of_response h ht (by simp)

theorem exec_write8_readByte {r : R8} {x : Slot8} {v : Byte} {s t : State} (hr : (r, x) ∈ registerTable)
    (h : exec (.write8 r v) s = .next t) : t.readByte x = v ∧ ∀ y, y ≠ x → t.readByte y = s.readByte y := by
  constructor
  · have hf : faultOf (.write8 r v) s = none := by
      simp [faultOf, Instr.wellFormed, namesRegister_of_mem_registerTable hr, readSlots]
    simp [exec_of_no_fault h hf, effectOf, mem_registerTable_iff.1 hr, writeByte_readByte_same, kept,
      ne_f_of_mem_registerTable hr]
  · intro y hy
    have hx : Slot.byte y ∉ writeSlots (.write8 r v) := by simp [writeSlots, registerSlots_of_mem hr, hy]
    exact (sameSlot_byte_iff.1 (exec_sameSlot h hx)).1.symm

/-! ### The halves of a pair view (R12, R21) -/

theorem lowByte_eq_setWidth (w : Word) : lowByte w = w.setWidth 8 := by
  have hmask : (0xFF : Word).setWidth 8 = BitVec.allOnes 8 := rfl
  rw [lowByte, BitVec.setWidth_and, hmask, BitVec.and_allOnes]

theorem lowByte_and_F0 (w : Word) : lowByte w &&& 0xF0 = (w &&& 0xF0).setWidth 8 := by
  rw [lowByte_eq_setWidth, BitVec.setWidth_and]
  rfl

/-- The low nibble of a composed word is the low nibble of its low byte. -/
theorem compose_and_0F (hi lo : Byte) : compose hi lo &&& 0x000F = (lo &&& 0x0F).setWidth 16 := by
  apply BitVec.eq_of_getLsbD_eq
  intro q hq
  interval_cases q <;> simp [compose]

theorem portValue_of_pair {p : P16} {hi lo : Slot8} (h : (p, hi, lo) ∈ pairTable) (s : State) :
    portValue p s = compose (s.readByte hi) (s.readByte lo) := by
  simp [portValue, mem_pairTable_iff.1 h]

theorem writePort_readByte_high {p : P16} {hi lo : Slot8} (h : (p, hi, lo) ∈ pairTable) (w : Word) (s : State) :
    (writePort p w s).readByte hi = highByte w := by
  obtain ⟨hne, hf, -⟩ := pair_halves h
  simp [writePort, mem_pairTable_iff.1 h, writeByte_readByte_other _ _ _ _ hne, writeByte_readByte_same, kept, hf]

theorem writePort_readByte_low {p : P16} {hi lo : Slot8} (h : (p, hi, lo) ∈ pairTable) (w : Word) (s : State) :
    (writePort p w s).readByte lo = kept lo (lowByte w) := by
  simp [writePort, mem_pairTable_iff.1 h, writeByte_readByte_same]

theorem writePort_readWord {p : P16} {z : Slot16} (h : (p, z) ∈ wordTable) (w : Word) (s : State) :
    (writePort p w s).readWord z = w := by
  simp [writePort, mem_wordTable_iff.1 h, writeWord_readWord_same]

/-! ### F (R15) -/

theorem kept_f (v : Byte) : kept .f v = v &&& 0xF0 := rfl

theorem exec_reset_readByte_f {s t : State} (h : exec .reset s = .next t) : t.readByte .f = 0x00 &&& 0xF0 := by
  simp [exec_reset_next h, State.readByte, wholeF]

theorem exec_write16_af_readByte_f {s t : State} {w : Word} (h : exec (.write16 .af w) s = .next t) :
    t.readByte .f = w.setWidth 8 &&& 0xF0 := by
  have haf : (P16.af, Slot8.a, Slot8.f) ∈ pairTable := by decide
  simp only [exec_write16_next h, State.respond_readByte, writePort_readByte_low haf, kept_f, lowByte_eq_setWidth]

theorem exec_setFlag_readByte_f {s t : State} {f : Flag} {b : Bool} (h : exec (.setFlag f b) s = .next t)
    (ht : t.halted = none) : t.readByte .f = withFlag f b (s.readByte .f) &&& 0xF0 := by
  simp only [exec_of_not_halted h ht, effectOf, State.respond_readByte, writeByte_readByte_same, kept_f]

theorem exec_write8_f {s t : State} {r : R8} {v : Byte} (h : exec (.write8 r v) s = .next t) : t.f = s.f := by
  have hf : SameSlot (.byte .f) s t := exec_sameSlot h (f_notMem_registerSlots r)
  exact (readByte_f_inj.1 (sameSlot_byte_iff.1 hf).1).symm

theorem exec_read16_af_low {s t : State} {v : Word} (h : exec (.read16 .af) s = .next t)
    (ht : t.response = some (.word v)) : v &&& 0x000F = 0 := by
  have haf : (P16.af, Slot8.a, Slot8.f) ∈ pairTable := by decide
  have hlow : s.readByte .f &&& 0x0F = 0 := wholeF_low s.f
  rw [exec_read16_word h ht, portValue_of_pair haf, compose_and_0F, hlow]
  rfl

/-- Settles O26: F stores four bits, and each operation that writes F goes through the masked write. -/
theorem lowNibbleOfFIsAlwaysZero : Obligations.LowNibbleOfFIsAlwaysZero := by
  refine ⟨fun s => wholeF_low s.f, fun s v => readByte_storeByte_same s .f v, fun _ _ _ h => exec_reset_readByte_f h,
    fun _ _ _ h => exec_write16_af_readByte_f h, ?_, fun _ _ _ _ h => exec_write8_f h,
    fun _ _ _ h ht => exec_read16_af_low h ht⟩
  intro s t f pos b hpos h ht
  rw [exec_setFlag_readByte_f h ht, withFlag, flagMask, pos_of_mem_flagTable hpos]
  rfl

/-! ### SP and PC (R13) -/

theorem word_mem_writeSlots {i : Instr} {z : Slot16} (h : Slot.word z ∈ writeSlots i) :
    i = .reset ∨ ∃ p v, (p, z) ∈ wordTable ∧ i = .write16 p v := by
  cases i with
  | reset => exact .inl rfl
  | read8 r | read16 p | flag f | setFlag f b => simp [writeSlots] at h
  | write8 r v => exact absurd h (word_notMem_registerSlots r z)
  | write16 p v =>
    refine .inr ⟨p, v, mem_wordTable_iff.2 ?_, rfl⟩
    unfold writeSlots portSlots at h
    cases ht : portTarget p with
    | pair hi lo => simp [ht] at h
    | slot x =>
      simp only [ht, List.mem_singleton, Slot.word.injEq] at h
      rw [h]

/-- A step that changes a 16-bit slot runs RESET or a WRITE16 of that slot. -/
theorem step_changes_word {s t : State} {z : Slot16} (h : step s = .next t) (hz : t.readWord z ≠ s.readWord z) :
    ∃ w rest, s.requests = w :: rest ∧
      (decode w = .ok .reset ∨ ∃ p v, (p, z) ∈ wordTable ∧ decode w = .ok (.write16 p v)) := by
  obtain ⟨-, ⟨-, rfl⟩ | ⟨w, rest, hreq, ⟨k, -, rfl⟩ | ⟨i, hd, hi⟩⟩⟩ := step_next_cases h
  · exact absurd rfl hz
  · have hsame := sameSlot_trans (sameSlot_requests (.word z) s rest) (sameSlot_raise _ _ (rejectFault k))
    exact absurd hsame.1.symm hz
  · by_cases hx : Slot.word z ∈ writeSlots i
    · refine ⟨w, rest, hreq, ?_⟩
      obtain rfl | ⟨p, v, hp, rfl⟩ := word_mem_writeSlots hx
      · exact .inl hd
      · exact .inr ⟨p, v, hp, hd⟩
    · have hsame := sameSlot_trans (sameSlot_requests (.word z) s rest) (exec_sameSlot hi hx)
      exact absurd hsame.1.symm hz

theorem mem_wordTable_sp {p : P16} (h : (p, Slot16.sp) ∈ wordTable) : p = .sp := by
  simpa [wordTable] using h

theorem mem_wordTable_pc {p : P16} (h : (p, Slot16.pc) ∈ wordTable) : p = .pc := by
  simpa [wordTable] using h

/-- Settles O28: only RESET and WRITE16 of a 16-bit slot have it in their written cells. -/
theorem onlyWrite16AndResetChangeSpAndPc : Obligations.OnlyWrite16AndResetChangeSpAndPc := by
  refine ⟨fun s t h => ⟨fun hsp => ?_, fun hpc => ?_⟩, fun s w hs => ⟨?_, ?_⟩⟩
  · obtain ⟨w, rest, hreq, hd | ⟨p, v, hp, hd⟩⟩ := step_changes_word (z := .sp) h hsp
    · exact ⟨w, rest, hreq, .inl hd⟩
    · exact ⟨w, rest, hreq, .inr ⟨v, mem_wordTable_sp hp ▸ hd⟩⟩
  · obtain ⟨w, rest, hreq, hd | ⟨p, v, hp, hd⟩⟩ := step_changes_word (z := .pc) h hpc
    · exact ⟨w, rest, hreq, .inl hd⟩
    · exact ⟨w, rest, hreq, .inr ⟨v, mem_wordTable_pc hp ▸ hd⟩⟩
  · exact ⟨_, exec_write16_running hs .sp w, writePort_readWord (z := .sp) (by decide) w s⟩
  · exact ⟨_, exec_write16_running hs .pc w, writePort_readWord (z := .pc) (by decide) w s⟩

/-! ### The pair views (R21) -/

theorem exec_write16_halves {p : P16} {hi lo : Slot8} {s t : State} {w : Word} (hp : (p, hi, lo) ∈ pairTable)
    (h : exec (.write16 p w) s = .next t) :
    t.readByte hi = highByte w ∧
      t.readByte lo = if p = .af then (w &&& 0xF0).setWidth 8 else (w &&& 0xFF).setWidth 8 := by
  obtain ⟨-, -, hlo⟩ := pair_halves hp
  rw [exec_write16_next h]
  refine ⟨writePort_readByte_high hp w s, ?_⟩
  rw [State.respond_readByte, writePort_readByte_low hp, kept, lowByte_and_F0]
  simp only [hlo, lowByte]

/-- No 8-bit access reaches a 16-bit slot. -/
theorem exec_byteAccess_readWord {s t : State} {r : R8} {v : Byte}
    (h : exec (.read8 r) s = .next t ∨ exec (.write8 r v) s = .next t) (z : Slot16) : t.readWord z = s.readWord z := by
  rcases h with h | h
  · have hz : SameSlot (.word z) s t := exec_sameSlot h List.not_mem_nil
    exact hz.1.symm
  · have hz : SameSlot (.word z) s t := exec_sameSlot h (word_notMem_registerSlots r z)
    exact hz.1.symm

/-- Settles O29: each clause is the rule of one operation on the halves of a pair. -/
theorem pairViewsAreBigEndian : Obligations.PairViewsAreBigEndian := by
  refine ⟨fun _ _ _ _ _ _ hp h => exec_write16_halves hp h, ?_, ?_,
    fun _ _ _ _ h => ⟨exec_byteAccess_readWord h .sp, exec_byteAccess_readWord h .pc⟩⟩
  · intro p hi lo r s t v hp h
    obtain ⟨hne, -, -⟩ := pair_halves hp
    constructor
    · intro hr
      obtain ⟨hval, hother⟩ := exec_write8_readByte hr h
      exact ⟨hval, hother lo hne.symm⟩
    · intro hr
      obtain ⟨hval, hother⟩ := exec_write8_readByte hr h
      exact ⟨hval, hother hi hne⟩
  · intro p hi lo s t v hp h ht
    exact (exec_read16_word h ht).trans (portValue_of_pair hp s)

end Sys2Proof.Machine
end

section
/-! SUPPORT. The word of an operation, read back field by field, and the decoder as the inverse of the encoder
(spec/30_encoding.md R37, R38). -/

namespace Sys2Proof

/-! ### The packed word, bit by bit -/

theorem getLsbD_packWord (data : Word) (v : Bool) (sel op : BitVec 3) (k : Nat) :
    (packWord data v sel op).getLsbD k =
      if k < 3 then op.getLsbD k else if k < 6 then sel.getLsbD (k - 3) else if k = 6 then v
      else decide (8 ≤ k) && data.getLsbD (k - 8) := by
  by_cases hk : k < 32
  · interval_cases k <;> simp [packWord]
  · have hdata : data.getLsbD (k - 8) = false := BitVec.getLsbD_of_ge _ _ (by omega)
    rw [BitVec.getLsbD_of_ge _ _ (by omega), hdata]
    simp [show ¬k < 3 by omega, show ¬k < 6 by omega, show k ≠ 6 by omega]

section Fields

variable (data : Word) (v : Bool) (sel op : BitVec 3)

@[simp] theorem packWord_op : (packWord data v sel op).op = op := by
  apply BitVec.eq_of_getLsbD_eq
  intro k hk
  simp [TxnWord.op, getLsbD_packWord, hk]

@[simp] theorem packWord_sel : (packWord data v sel op).sel = sel := by
  apply BitVec.eq_of_getLsbD_eq
  intro k hk
  simp [TxnWord.sel, getLsbD_packWord, hk, show 3 + k < 6 by omega]

@[simp] theorem packWord_v : (packWord data v sel op).v = v := by
  rw [TxnWord.v, getLsbD_packWord]
  rfl

@[simp] theorem packWord_data : (packWord data v sel op).data = data := by
  apply BitVec.eq_of_getLsbD_eq
  intro k hk
  simp [TxnWord.data, getLsbD_packWord, hk, show ¬8 + k < 3 by omega, show ¬8 + k < 6 by omega,
    show 8 + k ≠ 6 by omega]

/-- WRITE8's byte is the low half of DATA. -/
theorem byte_eq_data (w : TxnWord) : w.byte = w.data.setWidth 8 := by
  apply BitVec.eq_of_getLsbD_eq
  intro k hk
  simp [TxnWord.byte, TxnWord.data, hk, show k < 16 by omega]

@[simp] theorem packWord_high : (packWord data v sel op).extractLsb' 24 8 = 0 := by
  rw [extract_eq_zero_iff]
  intro k h1 _
  have hdata : data.getLsbD (k - 8) = false := BitVec.getLsbD_of_ge _ _ (by omega)
  simp [getLsbD_packWord, hdata, show ¬k < 3 by omega, show ¬k < 6 by omega, show k ≠ 6 by omega]

@[simp] theorem packWord_bit7 : (packWord data v sel op)[7] = false := by
  rw [← BitVec.getLsbD_eq_getElem, getLsbD_packWord]
  rfl

end Fields

/-- A word whose fields outside OP, SEL, V and DATA are zero is the packing of its four fields. -/
theorem packWord_fields {w : TxnWord} (hhigh : w.extractLsb' 24 8 = 0) (h7 : w.getLsbD 7 = false) :
    packWord w.data w.v w.sel w.op = w := by
  rw [extract_eq_zero_iff] at hhigh
  apply BitVec.eq_of_getLsbD_eq
  intro k hk
  rw [getLsbD_packWord]
  by_cases h24 : 24 ≤ k
  · rw [hhigh k h24 hk]
    simp [TxnWord.data, show ¬k < 3 by omega, show ¬k < 6 by omega, show k ≠ 6 by omega, show ¬k - 8 < 16 by omega]
  · have hbit7 : w[7] = false := h7
    interval_cases k <;> simp [TxnWord.op, TxnWord.sel, TxnWord.v, TxnWord.data, hbit7]

/-! ### Zero fields, as the decoder checks them -/

theorem v_data_of_extract_zero {w : TxnWord} (h : w.extractLsb' 6 18 = 0) : w.v = false ∧ w.data = 0 := by
  rw [extract_eq_zero_iff] at h
  exact ⟨h 6 (by omega) (by omega), (extract_eq_zero_iff w 8 16).2 fun k h1 h2 => h k (by omega) (by omega)⟩

theorem sel_v_data_of_extract_zero {w : TxnWord} (h : w.extractLsb' 3 21 = 0) :
    w.sel = 0 ∧ w.v = false ∧ w.data = 0 := by
  rw [extract_eq_zero_iff] at h
  exact ⟨(extract_eq_zero_iff w 3 3).2 fun k h1 h2 => h k (by omega) (by omega),
    v_data_of_extract_zero ((extract_eq_zero_iff w 6 18).2 fun k h1 h2 => h k (by omega) (by omega))⟩

/-- Bits 23:16 are the high half of DATA, so where they are zero DATA is WRITE8's byte. -/
theorem extract_16_8_eq_zero_iff (w : TxnWord) : w.extractLsb' 16 8 = 0 ↔ w.data = w.byte.setWidth 16 := by
  rw [extract_eq_zero_iff]
  constructor
  · intro h
    apply BitVec.eq_of_getLsbD_eq
    intro k hk
    by_cases h8 : k < 8
    · simp [TxnWord.data, TxnWord.byte, hk, h8]
    · simp [TxnWord.data, TxnWord.byte, hk, h8, h (8 + k) (by omega) (by omega)]
  · intro h k h1 h2
    have hbit : w.data.getLsbD (k - 8) = (w.byte.setWidth 16).getLsbD (k - 8) := by rw [h]
    simpa [TxnWord.data, TxnWord.byte, show k - 8 < 16 by omega, show ¬k - 8 < 8 by omega,
      show 8 + (k - 8) = k by omega] using hbit

/-! ### The decoder and the encoder -/

/-- Where no immediate stands in the word there are finitely many words; an immediate is read back by its field. -/
theorem decode_encode (i : Instr) : decode (encode i) = .ok i := by
  cases i with
  | reset => rfl
  | read8 r => cases r <;> rfl
  | read16 p => cases p <;> rfl
  | flag f => cases f <;> rfl
  | setFlag f b => cases f <;> cases b <;> rfl
  | write8 r v =>
    have hbyte : (encode (.write8 r v)).byte = v := by
      simp [encode, byte_eq_data]
    have htop : (encode (.write8 r v)).extractLsb' 16 8 = 0 := by
      rw [extract_16_8_eq_zero_iff, hbyte, encode, packWord_data]
    unfold decode
    rw [htop, hbyte]
    simp [encode, R8.ofCode_code]
  | write16 p d =>
    unfold decode
    simp [encode, P16.ofCode?_code, operandOr]

/-- The inversion of the decoder, form by form: SEL names the operand, and the fields the form does not use are zero. -/
theorem encode_of_decode {w : TxnWord} {i : Instr} (h : decode w = .ok i) : encode i = w := by
  obtain ⟨hhigh, h7, hform⟩ := decode_ok_cases h
  rw [← packWord_fields hhigh h7]
  obtain ⟨hop, h0, rfl⟩ | ⟨hop, h0, rfl⟩ | ⟨hop, h0, hv, rfl⟩ | ⟨hop, h0, p, hp, rfl⟩ | ⟨hop, hv, p, hp, rfl⟩ |
    ⟨hop, h0, f, hf, rfl⟩ | ⟨hop, h0, f, hf, rfl⟩ := hform
  · obtain ⟨hsel, hv, hdata⟩ := sel_v_data_of_extract_zero h0
    rw [hop, hsel, hv, hdata, encode]
  · obtain ⟨hv, hdata⟩ := v_data_of_extract_zero h0
    rw [hop, hv, hdata, encode, R8.code_ofCode]
  · rw [hop, hv, (extract_16_8_eq_zero_iff w).1 h0, encode, R8.code_ofCode]
  · obtain ⟨hv, hdata⟩ := v_data_of_extract_zero h0
    rw [hop, hv, hdata, encode, P16.code_of_ofCode? hp]
  · rw [hop, hv, encode, P16.code_of_ofCode? hp]
  · obtain ⟨hv, hdata⟩ := v_data_of_extract_zero h0
    rw [hop, hv, hdata, encode, Flag.code_of_ofCode? hf]
  · have hdata : w.data = 0 := h0
    rw [hop, hdata, encode, Flag.code_of_ofCode? hf]

theorem decode_eq_ok_iff {w : TxnWord} {i : Instr} : decode w = .ok i ↔ w = encode i :=
  ⟨fun h => (encode_of_decode h).symm, fun h => h ▸ decode_encode i⟩

/-! ### The words of the register accesses, written out -/

theorem packWord_without_v (data : Word) (sel op : BitVec 3) :
    packWord data false sel op = data.setWidth 32 <<< 8 ||| sel.setWidth 32 <<< 3 ||| op.setWidth 32 := by
  simp [packWord]

theorem packWord_selector_only (sel op : BitVec 3) :
    packWord 0 false sel op = sel.setWidth 32 <<< 3 ||| op.setWidth 32 := by
  simp [packWord]

theorem encode_write8 (r : R8) (v : Byte) :
    encode (.write8 r v) = v.setWidth 32 <<< 8 ||| r.code.setWidth 32 <<< 3 ||| 2 := by
  simp [encode, packWord_without_v]

end Sys2Proof
end

section
/-! SUPPORT. The register accesses RESET, READ8, WRITE8, READ16 and WRITE16, each as the exact next state it answers
(spec/40_register_access.md R43 to R47). -/

namespace Sys2Proof.Machine

/-! ### An operation that faults, and one that completes -/

theorem exec_of_faultOf_some {i : Instr} {s : State} {k : FaultKind} (h : s.halted = none) (hf : faultOf i s = some k) :
    exec i s = .next { s with halted := some k, response := some (.fault k) } := by
  rw [exec_running i h, hf]
  rfl

theorem exec_of_faultOf_none {i : Instr} {s : State} (h : s.halted = none) (hf : faultOf i s = none) :
    exec i s = .next { effectOf i s with response := some (responseOf i s) } := by
  rw [exec_running i h, hf]
  rfl

/-! ### RESET -/

/-- Settles O16: RESET never faults, and its effect does not depend on what the slots held. -/
theorem resetZeroesEverySlot : Obligations.ResetZeroesEverySlot := by
  refine ⟨fun w => decode_eq_ok_iff, fun s => ⟨fun h => ?_, fun _ hk => exec_halted .reset hk⟩⟩
  refine ⟨s.zeroSlots.respond .ack, exec_of_faultOf_none h rfl, exec_of_faultOf_none h rfl, ?_⟩
  rw [← h]
  rfl

/-! ### READ8 and WRITE8 -/

section Read8

variable {r : R8} {x : Slot8} {s : State} (hr : (r, x) ∈ registerTable)
include hr

theorem faultOf_read8 :
    faultOf (.read8 r) s = if s.isWritten (.byte x) = false then some (.uninitialised (.byte x)) else none := by
  cases hx : s.isWritten (.byte x) <;>
    simp [faultOf, Instr.wellFormed, namesRegister_of_mem_registerTable hr, readSlots, registerSlots_of_mem hr, hx]

theorem responseOf_read8 : responseOf (.read8 r) s = .byte (s.readByte x) := by
  simp [responseOf, mem_registerTable_iff.1 hr]

end Read8

/-- Settles O18: READ8 reads one slot, so it faults exactly where that slot is unwritten. -/
theorem read8ReturnsItsRegister : Obligations.Read8ReturnsItsRegister := by
  refine ⟨fun w r => ?_, fun s h => ⟨fun r x hr hx => ?_, fun r x hr hx => ?_, exec_of_faultOf_some h rfl⟩⟩
  · rw [decode_eq_ok_iff, encode, packWord_selector_only]
    rfl
  · rw [exec_of_faultOf_none h (by simp [faultOf_read8 hr, hx]), responseOf_read8 hr]
    rfl
  · exact exec_of_faultOf_some h (by simp [faultOf_read8 hr, hx])

/-- Settles O19: WRITE8 reads no slot, so it faults on `(HL)` alone, and its effect is one slot and its written bit. -/
theorem write8OverwritesItsRegister : Obligations.Write8OverwritesItsRegister := by
  refine ⟨fun w r v => by rw [decode_eq_ok_iff, encode_write8], fun s v h => ?_⟩
  have hcompletes {r : R8} (hf : faultOf (.write8 r v) s = none) := exec_of_faultOf_none h hf
  exact ⟨hcompletes rfl, hcompletes rfl, hcompletes rfl, hcompletes rfl, hcompletes rfl, hcompletes rfl, hcompletes rfl,
    exec_of_faultOf_some h rfl⟩

/-! ### READ16 and WRITE16 -/

theorem faultOf_read16 (p : P16) (s : State) :
    faultOf (.read16 p) s = ((portSlots p).find? (fun x => !s.isWritten x)).map .uninitialised := rfl

theorem faultOf_read16_pair {s : State} {p : P16} {hi lo : Slot8} (hp : (p, hi, lo) ∈ pairTable) :
    faultOf (.read16 p) s =
      if s.isWritten (.byte hi) = false then some (.uninitialised (.byte hi))
      else if s.isWritten (.byte lo) = false then some (.uninitialised (.byte lo)) else none := by
  rw [faultOf_read16, portSlots_of_mem_pairTable hp]
  cases hhi : s.isWritten (.byte hi) <;> cases hlo : s.isWritten (.byte lo) <;> simp [hhi, hlo]

theorem faultOf_read16_word {s : State} {p : P16} {z : Slot16} (hp : (p, z) ∈ wordTable) :
    faultOf (.read16 p) s = if s.isWritten (.word z) = false then some (.uninitialised (.word z)) else none := by
  rw [faultOf_read16, portSlots_of_mem_wordTable hp]
  cases hz : s.isWritten (.word z) <;> simp [hz]

theorem portValue_of_word {p : P16} {z : Slot16} (hp : (p, z) ∈ wordTable) (s : State) : portValue p s = s.readWord z := by
  simp [portValue, mem_wordTable_iff.1 hp]

theorem exec_read16_of_faultOf_none {s : State} {p : P16} (h : s.halted = none) (hf : faultOf (.read16 p) s = none) :
    exec (.read16 p) s = .next { s with response := some (.word (portValue p s)) } :=
  exec_of_faultOf_none h hf

/-- Settles O20: READ16 faults by the first unwritten slot of its operand, and otherwise answers the operand's value. -/
theorem read16ReturnsItsView : Obligations.Read16ReturnsItsView := by
  refine ⟨fun w p => ?_, fun s h => ⟨fun p hi lo hp => ⟨fun hhi hlo => ?_, fun hhi => ?_, fun hhi hlo => ?_⟩,
    fun p z hp => ⟨fun hz => ?_, fun hz => ?_⟩⟩⟩
  · rw [decode_eq_ok_iff, encode, packWord_selector_only]
    rfl
  · rw [exec_read16_of_faultOf_none h (by simp [faultOf_read16_pair hp, hhi, hlo]), portValue_of_pair hp]
    rfl
  · exact exec_of_faultOf_some h (by simp [faultOf_read16_pair hp, hhi])
  · exact exec_of_faultOf_some h (by simp [faultOf_read16_pair hp, hhi, hlo])
  · rw [exec_read16_of_faultOf_none h (by simp [faultOf_read16_word hp, hz]), portValue_of_word hp]
  · exact exec_of_faultOf_some h (by simp [faultOf_read16_word hp, hz])

/-- What WRITE16 AF stores in F: word bits 7:4, which are Z, N, H and C (R47). -/
theorem storedF_lowByte (w : Word) : storedF (lowByte w) = w.extractLsb' 4 4 := by
  rw [lowByte_eq_setWidth, storedF]
  apply BitVec.eq_of_getLsbD_eq
  intro k hk
  simp [hk, show 4 + k < 8 by omega]

/-- Settles O21: WRITE16 never faults, and its effect is `writePort` of the operand, where AF alone masks its low byte. -/
theorem write16WritesItsView : Obligations.Write16WritesItsView := by
  refine ⟨fun w p d => ?_, fun s w h => ?_⟩
  · rw [decode_eq_ok_iff, encode, packWord_without_v]
    rfl
  have hcompletes (p : P16) := exec_write16_running h p w
  refine ⟨hcompletes .bc, hcompletes .de, hcompletes .hl, ?_, hcompletes .sp, hcompletes .pc⟩
  rw [hcompletes .af, ← storedF_lowByte]
  rfl

end Sys2Proof.Machine
end

section
/-! SUPPORT. The flag accesses, which read F alone (spec/41_flag_access.md R48, R49). -/

namespace Sys2Proof.Machine

/-- An operation that reads one slot faults exactly where that slot is unwritten (R55). -/
theorem faultOf_of_readSlots_singleton {i : Instr} {x : Slot} (hw : i.wellFormed = true) (hx : readSlots i = [x])
    (s : State) : faultOf i s = if s.isWritten x = false then some (.uninitialised x) else none := by
  cases hs : s.isWritten x <;> simp [faultOf, hw, hx, hs]

theorem faultOf_flag (f : Flag) (s : State) :
    faultOf (.flag f) s = if s.isWritten (.byte .f) = false then some (.uninitialised (.byte .f)) else none :=
  faultOf_of_readSlots_singleton rfl rfl s

/-- The shift and mask of R48 pick out the bit at the flag's position. -/
theorem flagOf_eq_getLsbD (f : Flag) (v : Byte) : flagOf f v = v.getLsbD f.pos := by
  have hbit : (v >>> f.pos) &&& 1 = (BitVec.ofBool (v.getLsbD f.pos)).setWidth 8 := by
    simpa using BitVec.and_one_eq_setWidth_ofBool_getLsbD (x := v >>> f.pos)
  rw [flagOf, hbit]
  cases v.getLsbD f.pos <;> rfl

/-- Settles O22: FLAG reads F alone, so it faults exactly where F is unwritten, and `flagOf` is one bit of F. -/
theorem flagReadsOneBit : Obligations.FlagReadsOneBit := by
  refine ⟨fun w f => ?_, fun s f pos h hpos => ⟨fun hf => ?_, fun hf => ?_⟩⟩
  · rw [decode_eq_ok_iff, encode, packWord_selector_only]
    rfl
  · rw [exec_of_faultOf_none h (by simp [faultOf_flag, hf]), responseOf, flagOf_eq_getLsbD, pos_of_mem_flagTable hpos]
    rfl
  · exact exec_of_faultOf_some h (by simp [faultOf_flag, hf])

end Sys2Proof.Machine
end

section
/-! SUPPORT. The encoding as a bijection between operations and the words that are not reserved, and the opcode map's
rows (spec/30_encoding.md R37, R38, section 4; spec/60_exceptions.md R53). -/

namespace Sys2Proof

open Machine

/-- Settles O3: operation by operation, each field is read back from its place. -/
theorem decodeOfEncode : Obligations.DecodeOfEncode := decode_encode

/-- Settles O4: the fields a form does not use are zero, and SEL is the code of the operand it names. -/
theorem encodeOfDecode : Obligations.EncodeOfDecode := fun _ _ => encode_of_decode

/-- Settles O5, field by field from the bits of the packed word (`getLsbD_packWord`). -/
theorem packedFieldsReadBack : Obligations.PackedFieldsReadBack := fun data v sel op =>
  ⟨packWord_op data v sel op, packWord_sel data v sel op, packWord_v data v sel op, packWord_bit7 data v sel op,
    packWord_data data v sel op, packWord_high data v sel op⟩

/-! ### Rows of the opcode map -/

theorem encode_and_row_mask (i : Instr) : encode i &&& i.row.mask = i.row.pattern := by
  cases i with
  | reset => exact Laws.EncodingRow.reset
  | read8 r => exact Laws.EncodingRow.read8 r
  | write8 r v => exact Laws.EncodingRow.write8 r v
  | read16 p => exact Laws.EncodingRow.read16 p
  | write16 p w => exact Laws.EncodingRow.write16 p w
  | flag f => exact Laws.EncodingRow.flag f
  | setFlag f v => exact Laws.EncodingRow.setFlag f v

theorem row_selects_encode (i : Instr) : i.row.selects (encode i) = true := by
  simp [OpcodeRow.selects, encode_and_row_mask]

theorem row_mem_opcodeTable (i : Instr) : i.row ∈ opcodeTable := by
  cases i <;> simp [opcodeTable, Instr.row]

theorem extractLsb'_eq_zero_of_and {w m : TxnWord} {lo n : Nat} (h : w &&& m = 0)
    (hm : m.extractLsb' lo n = BitVec.allOnes n) : w.extractLsb' lo n = 0 := by
  have hfield := congrArg (BitVec.extractLsb' lo n) h
  simpa [BitVec.extractLsb'_and, hm] using hfield

theorem getLsbD_eq_false_of_and {w m : TxnWord} {k : Nat} (h : w &&& m = 0) (hm : m.getLsbD k = true) :
    w.getLsbD k = false := by
  have hbit := congrArg (·.getLsbD k) h
  simpa [hm] using hbit

/-- Every row's mask keeps OP. -/
theorem op_of_selects {r : OpcodeRow} (hr : r ∈ opcodeTable) {w : TxnWord} (h : r.selects w = true) :
    w.op = r.pattern.op := by
  have hmask : ∀ r ∈ opcodeTable, r.mask.op = BitVec.allOnes 3 := by decide
  have hw : w &&& r.mask = r.pattern := by simpa [OpcodeRow.selects] using h
  have hop : w.op &&& r.mask.op = r.pattern.op := by
    rw [← hw, TxnWord.op, TxnWord.op, TxnWord.op, BitVec.extractLsb'_and]
  rwa [hmask r hr, BitVec.and_allOnes] at hop

theorem eq_of_pattern_op_eq : ∀ r ∈ opcodeTable, ∀ r' ∈ opcodeTable, r.pattern.op = r'.pattern.op → r = r' := by
  decide

theorem selects_encode_iff (i : Instr) {r : OpcodeRow} (hr : r ∈ opcodeTable) :
    r.selects (encode i) = true ↔ r = i.row := by
  constructor
  · intro h
    have hop := (op_of_selects hr h).symm.trans (op_of_selects (row_mem_opcodeTable i) (row_selects_encode i))
    exact eq_of_pattern_op_eq r hr _ (row_mem_opcodeTable i) hop
  · rintro rfl
    exact row_selects_encode i

/-- A word that is no operation's word is refused, and recorded (R39). -/
theorem decode_eq_error_of_ne_encode {w : TxnWord} (h : ∀ i, w ≠ encode i) : decode w = .error (.reserved w) := by
  cases hd : decode w with
  | ok i => exact absurd (encode_of_decode hd).symm (h i)
  | error e => rw [decode_error_word hd]

/-- Settles O7: the rows differ in OP, which every row's mask keeps, so a word selects at most the row of its
operation. -/
theorem opcodeRowsClassifyWords : Obligations.OpcodeRowsClassifyWords := by
  refine ⟨rfl, fun w => ⟨fun i hd => ?_, fun hnone => decode_eq_error_of_ne_encode ?_⟩⟩
  · obtain rfl := decode_eq_ok_iff.1 hd
    exact ⟨row_mem_opcodeTable i, fun r hr => selects_encode_iff i hr⟩
  · rintro i rfl
    simpa [row_selects_encode] using hnone i.row (row_mem_opcodeTable i)

/-! ### Reserved words (R53) -/

/-- The row of an operation keeps every must-be-zero bit of its OP, and they are zero in the row's pattern. -/
theorem encode_and_mustBeZero (i : Instr) : encode i &&& mustBeZero (encode i).op = 0 := by
  have hrow : i.row.mask &&& mustBeZero (encode i).op = mustBeZero (encode i).op ∧
      i.row.pattern &&& mustBeZero (encode i).op = 0 := by
    cases i <;> simp [encode, mustBeZero, Instr.row]
  calc encode i &&& mustBeZero (encode i).op
      = encode i &&& i.row.mask &&& mustBeZero (encode i).op := by rw [BitVec.and_assoc, hrow.1]
    _ = 0 := by rw [encode_and_row_mask, hrow.2]

theorem not_reservedWord_encode (i : Instr) : ¬ReservedWord (encode i) := by
  rintro (h | h | h | h)
  · cases i <;> simp [encode] at h
  · exact h (encode_and_mustBeZero i)
  · cases i with
    | read16 p | write16 p w => cases p <;> simp [encode, P16.code] at h
    | _ => simp [encode] at h
  · cases i with
    | flag f | setFlag f b => cases f <;> simp [encode, Flag.code, Flag.pos] at h
    | _ => simp [encode] at h

theorem op_cases (w : TxnWord) :
    w.op = 0 ∨ w.op = 1 ∨ w.op = 2 ∨ w.op = 3 ∨ w.op = 4 ∨ w.op = 5 ∨ w.op = 6 ∨ w.op = 7 := by
  generalize w.op = op
  revert op
  decide

theorem exists_p16_code {c : BitVec 3} (h : ¬6 ≤ c.toNat) : ∃ p : P16, p.code = c := by
  obtain ⟨p, hp⟩ := Option.ne_none_iff_exists'.1 (mt (P16.ofCode?_eq_none c).1 h)
  exact ⟨p, P16.code_of_ofCode? hp⟩

theorem exists_flag_code {c : BitVec 3} (h : ¬c.toNat ≤ 3) : ∃ f : Flag, f.code = c := by
  obtain ⟨f, hf⟩ := Option.ne_none_iff_exists'.1 (mt (Flag.ofCode?_eq_none c).1 h)
  exact ⟨f, Flag.code_of_ofCode? hf⟩

/-- Every OP's must-be-zero bits include 31:24 and 7, which hold no field, so the four fields make up the word. -/
theorem packWord_fields_of_and_mustBeZero {w : TxnWord} (h : w &&& mustBeZero w.op = 0) :
    packWord w.data w.v w.sel w.op = w := by
  have hmask : ∀ op, (mustBeZero op).extractLsb' 24 8 = BitVec.allOnes 8 ∧ (mustBeZero op).getLsbD 7 = true := by decide
  obtain ⟨hhigh, h7⟩ := hmask w.op
  exact packWord_fields (extractLsb'_eq_zero_of_and h hhigh) (getLsbD_eq_false_of_and h h7)

/-- By OP: the must-be-zero bits leave the fields of one operation, and SEL names its operand. -/
theorem exists_encode_of_not_reservedWord {w : TxnWord} (h : ¬ReservedWord w) : ∃ i, w = encode i := by
  push Not at h
  obtain ⟨h7, hzero, hport, hflag⟩ := h
  have hw := packWord_fields_of_and_mustBeZero hzero
  obtain hop | hop | hop | hop | hop | hop | hop | hop := op_cases w <;> rw [hop] at hw hzero
  · obtain ⟨hsel, hv, hdata⟩ := sel_v_data_of_extract_zero (extractLsb'_eq_zero_of_and hzero rfl)
    exact ⟨.reset, by rw [← hw, hsel, hv, hdata, encode]⟩
  · obtain ⟨hv, hdata⟩ := v_data_of_extract_zero (extractLsb'_eq_zero_of_and hzero rfl)
    exact ⟨.read8 (R8.ofCode w.sel), by rw [← hw, hv, hdata, encode, packWord_sel, R8.code_ofCode]⟩
  · have hv : w.v = false := getLsbD_eq_false_of_and hzero rfl
    have hdata := (extract_16_8_eq_zero_iff w).1 (extractLsb'_eq_zero_of_and hzero rfl)
    exact ⟨.write8 (R8.ofCode w.sel) w.byte, by rw [encode, R8.code_ofCode, ← hdata, ← hv, hw]⟩
  · obtain ⟨hv, hdata⟩ := v_data_of_extract_zero (extractLsb'_eq_zero_of_and hzero rfl)
    obtain ⟨p, hp⟩ := exists_p16_code (hport (.inl hop)).not_ge
    exact ⟨.read16 p, by rw [encode, hp, ← hv, ← hdata, hw]⟩
  · have hv : w.v = false := getLsbD_eq_false_of_and hzero rfl
    obtain ⟨p, hp⟩ := exists_p16_code (hport (.inr hop)).not_ge
    exact ⟨.write16 p w.data, by rw [encode, hp, ← hv, hw]⟩
  · obtain ⟨hv, hdata⟩ := v_data_of_extract_zero (extractLsb'_eq_zero_of_and hzero rfl)
    obtain ⟨f, hf⟩ := exists_flag_code (hflag (.inl hop)).not_ge
    exact ⟨.flag f, by rw [encode, hf, ← hv, ← hdata, hw]⟩
  · have hdata : w.data = 0 := extractLsb'_eq_zero_of_and hzero rfl
    obtain ⟨f, hf⟩ := exists_flag_code (hflag (.inr hop)).not_ge
    exact ⟨.setFlag f w.v, by rw [encode, hf, ← hdata, hw]⟩
  · exact absurd hop h7

theorem decode_of_reservedWord {w : TxnWord} (h : ReservedWord w) : decode w = .error (.reserved w) :=
  decode_eq_error_of_ne_encode fun i hi => not_reservedWord_encode i (hi ▸ h)

theorem exists_decode_of_not_reservedWord {w : TxnWord} (h : ¬ReservedWord w) : ∃ i, decode w = .ok i := by
  obtain ⟨i, rfl⟩ := exists_encode_of_not_reservedWord h
  exact ⟨i, decode_encode i⟩

/-- Settles O6: the words that are not reserved are exactly the words of the operations. -/
theorem reservedWordsAreExactlyTheRejected : Obligations.ReservedWordsAreExactlyTheRejected := fun _ =>
  ⟨decode_of_reservedWord, exists_decode_of_not_reservedWord⟩

/-! ### Words and codes as tabled -/

/-- Settles O1: twelve closed words, evaluated. -/
theorem writtenOutWordsDecode : Obligations.WrittenOutWordsDecode := by
  unfold Obligations.WrittenOutWordsDecode
  decide

/-- Settles O2: the finite tables of the selectors, evaluated. -/
theorem selectorCodesAsTabled : Obligations.SelectorCodesAsTabled := by
  unfold Obligations.SelectorCodesAsTabled
  decide

end Sys2Proof
end

section
/-! SUPPORT. The text form of an operation: its tokens, and each operand's spelling read back
(spec/30_encoding.md R40). -/

namespace Sys2Proof

/-! ### The tokens of a line -/

/-- A word of a line: not empty, with no space and no comma in it. -/
def IsToken (t : List Char) : Prop := t ≠ [] ∧ ∀ c ∈ t, c ≠ ' ' ∧ c ≠ ','

theorem tokensFrom_append {t : List Char} (h : ∀ c ∈ t, c ≠ ' ' ∧ c ≠ ',') (cur rest : List Char) :
    tokensFrom cur (t ++ rest) = tokensFrom (cur ++ t) rest := by
  induction t generalizing cur with
  | nil => simp
  | cons c cs ih =>
    obtain ⟨⟨hspace, hcomma⟩, hcs⟩ := List.forall_mem_cons.1 h
    simp [tokensFrom, hspace, hcomma, ih hcs]

theorem tokensFrom_token {t : List Char} (h : IsToken t) : tokensFrom [] t = [t] := by
  simpa [tokensFrom, putToken, h.1] using tokensFrom_append h.2 [] []

theorem tokensFrom_token_space {t : List Char} (h : IsToken t) (rest : List Char) :
    tokensFrom [] (t ++ ' ' :: rest) = t :: tokensFrom [] rest := by
  rw [tokensFrom_append h.2]
  simp [tokensFrom, putToken, h.1]

theorem tokensFrom_token_comma_space {t : List Char} (h : IsToken t) (rest : List Char) :
    tokensFrom [] (t ++ ',' :: ' ' :: rest) = t :: [','] :: tokensFrom [] rest := by
  rw [tokensFrom_append h.2]
  simp [tokensFrom, putToken, h.1]

theorem tokensFrom_two {m x : List Char} (hm : IsToken m) (hx : IsToken x) :
    tokensFrom [] (m ++ ' ' :: x) = [m, x] := by
  rw [tokensFrom_token_space hm, tokensFrom_token hx]

theorem tokensFrom_four {m x y : List Char} (hm : IsToken m) (hx : IsToken x) (hy : IsToken y) :
    tokensFrom [] (m ++ ' ' :: x ++ ',' :: ' ' :: y) = [m, x, [','], y] := by
  rw [List.append_assoc, List.cons_append, tokensFrom_token_space hm, tokensFrom_token_comma_space hx,
    tokensFrom_token hy]

/-! ### Names -/

theorem R8.isToken_name (r : R8) : IsToken r.name := by cases r <;> simp [IsToken, R8.name]

theorem P16.isToken_name (p : P16) : IsToken p.name := by cases p <;> simp [IsToken, P16.name]

theorem Flag.isToken_name (f : Flag) : IsToken f.name := by cases f <;> simp [IsToken, Flag.name]

theorem R8.ofName?_name (r : R8) : R8.ofName? r.name = some r := by cases r <;> rfl

theorem P16.ofName?_name (p : P16) : P16.ofName? p.name = some p := by cases p <;> rfl

theorem Flag.ofName?_name (f : Flag) : Flag.ofName? f.name = some f := by cases f <;> rfl

/-! ### Immediates -/

theorem hexDigit?_hexChar (d : BitVec 4) : hexDigit? (hexChar d) = some d.toNat := by
  revert d
  decide

theorem hexChar_plain (d : BitVec 4) : hexChar d ≠ ' ' ∧ hexChar d ≠ ',' := by
  revert d
  decide

theorem isToken_byteChars (v : Byte) : IsToken (byteChars v) := by
  simp [IsToken, byteChars, hexChar_plain]

theorem isToken_wordChars (w : Word) : IsToken (wordChars w) := by
  simp [IsToken, wordChars, hexChar_plain]

theorem number?_byteChars (v : Byte) : number? (byteChars v) = some v.toNat := by
  simp only [byteChars, number?, digitsFrom, hexDigit?_hexChar, BitVec.extractLsb'_toNat, Nat.shiftRight_eq_div_pow]
  congr 1
  omega

theorem number?_wordChars (w : Word) : number? (wordChars w) = some w.toNat := by
  simp only [wordChars, number?, digitsFrom, hexDigit?_hexChar, BitVec.extractLsb'_toNat, Nat.shiftRight_eq_div_pow]
  congr 1
  omega

/-- An immediate is read back where its number is spelled right. -/
theorem immediate?_of_number? {width : Nat} {t : List Char} {v : BitVec width} (h : number? t = some v.toNat) :
    immediate? width t = some v := by
  simp [immediate?, h, v.isLt]

/-- A number that does not fit the field is no immediate: an error, not a wrap (R40). -/
theorem immediate?_of_oversize {width n : Nat} {t : List Char} (h : number? t = some n) (hn : 2 ^ width ≤ n) :
    immediate? width t = none := by
  simp [immediate?, h, hn.not_gt]

/-! ### Lines -/

theorem setting?_digit (b : Bool) : setting? [if b then '1' else '0'] = some b := by cases b <;> rfl

theorem isToken_digit (b : Bool) : IsToken [if b then '1' else '0'] := by cases b <;> simp [IsToken]

/-- Settles O8: a line splits into its tokens, and each token is read back. -/
theorem assembledTextRoundTrips : Obligations.AssembledTextRoundTrips := by
  intro i
  have hwords : IsToken wordReset ∧ IsToken wordRead8 ∧ IsToken wordWrite8 ∧ IsToken wordRead16 ∧
      IsToken wordWrite16 ∧ IsToken wordFlag ∧ IsToken wordSetFlag := by
    simp [IsToken, wordReset, wordRead8, wordWrite8, wordRead16, wordWrite16, wordFlag, wordSetFlag]
  obtain ⟨hreset, hread8, hwrite8, hread16, hwrite16, hflag, hsetFlag⟩ := hwords
  unfold assembleChars
  cases i with
  | reset => rfl
  | read8 r =>
    rw [Instr.chars, tokensFrom_two hread8 r.isToken_name]
    simp [ofTokens?, R8.ofName?_name]
  | write8 r v =>
    rw [Instr.chars, tokensFrom_four hwrite8 r.isToken_name (isToken_byteChars v)]
    simp [ofTokens?, R8.ofName?_name, immediate?_of_number? (number?_byteChars v)]
  | read16 p =>
    rw [Instr.chars, tokensFrom_two hread16 p.isToken_name]
    simp [ofTokens?, P16.ofName?_name, wordRead8, wordRead16]
  | write16 p w =>
    rw [Instr.chars, tokensFrom_four hwrite16 p.isToken_name (isToken_wordChars w)]
    simp [ofTokens?, P16.ofName?_name, immediate?_of_number? (number?_wordChars w), wordWrite8, wordWrite16]
  | flag f =>
    rw [Instr.chars, tokensFrom_two hflag f.isToken_name]
    simp [ofTokens?, Flag.ofName?_name, wordRead8, wordRead16, wordFlag]
  | setFlag f b =>
    rw [Instr.chars, tokensFrom_four hsetFlag f.isToken_name (isToken_digit b)]
    simp [ofTokens?, Flag.ofName?_name, setting?_digit, wordWrite8, wordWrite16, wordSetFlag]

/-- Settles O9: `immediate?` checks the number against its field's range before it makes a word of it. -/
theorem oversizeImmediateIsAssemblyError : Obligations.OversizeImmediateIsAssemblyError := by
  refine fun t n ht => ⟨fun hn x => ?_, fun hn x => ?_⟩
  · cases hx : R8.ofName? x <;> simp [ofTokens?, hx, immediate?_of_oversize (width := 8) ht hn]
  · cases hx : P16.ofName? x <;>
      simp [ofTokens?, hx, immediate?_of_oversize (width := 16) ht hn, wordWrite8, wordWrite16]

end Sys2Proof
end

section
/-! SUPPORT. One step, by what stands in the queue; the written bits an operation leaves; and the frame, the responses
and the faults of an operation (spec/40_register_access.md section 1, spec/60_exceptions.md,
spec/70_reset_and_hazards.md). -/

namespace Sys2Proof.Machine

/-! ### One step, by what stands in the queue -/

section Step

variable {s : State} {w : TxnWord} {rest : List TxnWord}

theorem step_of_idle (hr : s.requests = []) : step s = idle s := by
  unfold step stepPort
  rw [hr]

theorem step_of_request (hr : s.requests = w :: rest) : step s = runTransaction w { s with requests := rest } := by
  unfold step stepPort
  rw [hr]

theorem step_of_decode {i : Instr} (hr : s.requests = w :: rest) (hd : decode w = .ok i) :
    step s = exec i { s with requests := rest } := by
  rw [step_of_request hr, runTransaction, hd]

theorem step_of_reject (hr : s.requests = w :: rest) (hs : s.halted = none) (hd : decode w = .error (.reserved w)) :
    step s = .next ({ s with requests := rest }.raise (.reserved w)) := by
  rw [step_of_request hr, runTransaction, hd]
  exact transact_running _ hs

/-- A halted block takes no step, whatever waits (R57). -/
theorem step_halted {k : FaultKind} (h : s.halted = some k) : step s = .fault (.halted k) := by
  cases hr : s.requests with
  | nil => simp [step_of_idle hr, idle, h]
  | cons w rest =>
    rw [step_of_request hr, runTransaction]
    cases decode w with
    | ok i => exact exec_halted i h
    | error e => exact transact_halted _ h

end Step

/-! ### The fault of an operation -/

theorem faultOf_of_wellFormed {i : Instr} (h : i.wellFormed = true) (s : State) :
    faultOf i s = ((readSlots i).find? (fun x => !s.isWritten x)).map .uninitialised := by
  simp [faultOf, h]

theorem faultOf_eq_none_iff {i : Instr} {s : State} :
    faultOf i s = none ↔ i.wellFormed = true ∧ ∀ x ∈ readSlots i, s.isWritten x = true := by
  unfold faultOf
  split <;> simp [*]

/-- An operation lies outside the source's domain exactly when its `r8` operand is `(HL)` (R52). -/
theorem wellFormed_iff (i : Instr) : i.wellFormed = true ↔ i ≠ .read8 .hlMem ∧ ∀ v, i ≠ .write8 .hlMem v := by
  cases i with
  | read8 r | write8 r v => cases r <;> simp [Instr.wellFormed, R8.namesRegister]
  | _ => simp [Instr.wellFormed]

section Exec

variable {i : Instr} {s t : State}

theorem exec_halted_eq (h : exec i s = .next t) : t.halted = faultOf i s := by
  obtain ⟨hs, ⟨k, hk, rfl⟩ | ⟨hk, rfl⟩⟩ := exec_next_cases h
  · simp [hk]
  · simp [hk, effectOf_halted, hs]

theorem exec_eq_raise {k : FaultKind} (h : exec i s = .next t) (hk : t.halted = some k) : t = s.raise k := by
  obtain ⟨hs, ⟨j, -, rfl⟩ | ⟨-, rfl⟩⟩ := exec_next_cases h
  · rw [Option.some.inj hk]
  · simp [effectOf_halted, hs] at hk

theorem exec_requests (h : exec i s = .next t) : t.requests = s.requests := by
  obtain ⟨-, ⟨k, -, rfl⟩ | ⟨-, rfl⟩⟩ := exec_next_cases h
  · rfl
  · exact effectOf_requests i s

end Exec

/-! ### The written bits after an operation -/

theorem effectOf_isWritten (i : Instr) (s : State) (x : Slot) :
    (effectOf i s).isWritten x = (decide (x ∈ writeSlots i) || s.isWritten x) := by
  cases i with
  | reset => simp [writeSlots, mem_allSlots, effectOf, State.isWritten, has_all]
  | read8 r | read16 p | flag f => simp [writeSlots, effectOf]
  | write8 r v => cases hr : slot8? r <;> simp [writeSlots, registerSlots, effectOf, hr, writeByte_isWritten]
  | write16 p w => exact writePort_isWritten p w s x
  | setFlag f b => simp [writeSlots, effectOf, writeByte_isWritten]

theorem exec_isWritten {i : Instr} {s t : State} {x : Slot} (h : exec i s = .next t) (hx : s.isWritten x = true) :
    t.isWritten x = true := by
  obtain ⟨-, ⟨k, -, rfl⟩ | ⟨-, rfl⟩⟩ := exec_next_cases h
  · exact hx
  · simp [effectOf_isWritten, hx]

/-! ### The port agreement -/

theorem portAgrees_raise (s : State) (k : FaultKind) : PortAgrees (s.raise k) := by
  intro j
  simp

theorem portAgrees_respond {s : State} {r : Response} (hs : s.halted = none) (hr : ∀ k, r ≠ .fault k) :
    PortAgrees (s.respond r) := by
  intro k
  simp [hs, hr k]

theorem exec_portAgrees {i : Instr} {s t : State} (h : exec i s = .next t) : PortAgrees t := by
  obtain ⟨hs, ⟨k, -, rfl⟩ | ⟨-, rfl⟩⟩ := exec_next_cases h
  · exact portAgrees_raise s k
  · exact portAgrees_respond ((effectOf_halted i s).trans hs) (responseOf_ne_fault i s)

/-- Settles O36: a refused word and a faulting operation set both fields, a completing operation sets neither. -/
theorem stepKeepsPortAgreement : Obligations.StepKeepsPortAgreement := by
  intro s t hs h
  obtain ⟨-, ⟨-, rfl⟩ | ⟨w, rest, -, ⟨e, -, rfl⟩ | ⟨i, -, hi⟩⟩⟩ := step_next_cases h
  · exact hs
  · exact portAgrees_raise _ _
  · exact exec_portAgrees hi

/-- Settles O35: in both states nothing has responded and nothing has halted. -/
theorem resetStateMeetsTheInvariants : Obligations.ResetStateMeetsTheInvariants :=
  ⟨fun k => by simp [State.reset], fun k => by simp [State.powerOn], has_all⟩

/-! ### The step frame -/

/-- Settles O10: the step hands the operation the shortened queue, which no operation touches. -/
theorem stepRunsDecodedOperation : Obligations.StepRunsDecodedOperation := by
  intro s w rest i hr hd
  have hstep := step_of_decode hr hd
  exact ⟨hstep, fun t ht => exec_requests (hstep ▸ ht)⟩

/-- Settles O11: with nothing waiting a step is `idle`. -/
theorem emptyPortChangesNothing : Obligations.EmptyPortChangesNothing := fun _ hr =>
  ⟨fun hs => (step_of_idle hr).trans (idle_next_iff.2 ⟨hs, rfl⟩), fun _ hk => step_halted hk⟩

theorem exec_completes {i : Instr} {s : State} (h : s.halted = none) (hf : faultOf i s = none) :
    ∃ t r, exec i s = .next t ∧ t.halted = none ∧ t.response = some r ∧ ∀ k, r ≠ .fault k :=
  ⟨_, responseOf i s, exec_of_faultOf_none h hf, (effectOf_halted i s).trans h, rfl, responseOf_ne_fault i s⟩

/-- An operation of a block that is not halted takes its fault, or completes unhalted with a response that is none. -/
theorem exec_faults_or_completes (i : Instr) {s : State} (h : s.halted = none) :
    (∃ k, exec i s = .next { s with halted := some k, response := some (.fault k) }) ∨
      ∃ t r, exec i s = .next t ∧ t.halted = none ∧ t.response = some r ∧ ∀ k, r ≠ .fault k := by
  cases hf : faultOf i s with
  | some k => exact .inl ⟨k, exec_of_faultOf_some h hf⟩
  | none => exact .inr (exec_completes h hf)

/-- Settles O12: the queue's head is refused exactly where it is reserved, and an operation runs in the frame of
`exec_running`. -/
theorem stepFrame : Obligations.StepFrame := by
  refine ⟨fun s w rest hr => ⟨fun k hk => step_halted hk, fun hs hw => ?_, fun _ hw => ?_⟩,
    fun i s => ⟨fun k hk => exec_halted i hk, exec_faults_or_completes i⟩⟩
  · exact step_of_reject hr hs (decode_of_reservedWord hw)
  · obtain ⟨i, hd⟩ := exists_decode_of_not_reservedWord hw
    exact ⟨i, hd, step_of_decode hr hd⟩

/-- A step that ends halted raised the fault on the state whose oldest word has left the queue. -/
theorem step_eq_raise {s t : State} {k : FaultKind} (h : step s = .next t) (hk : t.halted = some k) :
    t = { s with requests := s.requests.tail }.raise k := by
  obtain ⟨hs, ⟨-, rfl⟩ | ⟨w, rest, hr, ⟨e, -, rfl⟩ | ⟨i, -, hi⟩⟩⟩ := step_next_cases h
  · simp [hs] at hk
  · obtain rfl : rejectFault e = k := Option.some.inj hk
    rw [hr, List.tail_cons]
  · rw [hr, List.tail_cons]
    exact exec_eq_raise hi hk

/-- Settles O13: such a step raised its fault (`step_eq_raise`), and a halted block runs nothing. -/
theorem faultHaltsTheBlockForGood : Obligations.FaultHaltsTheBlockForGood := by
  intro s t k h hk
  exact ⟨step_eq_raise h hk, fun _ => step_halted hk, fun i => exec_halted i hk,
    fun ⟨_, hnone⟩ => Option.some_ne_none k (hk.symm.trans hnone)⟩

/-- Settles O14: a completed operation responds `responseOf`, and READ8 completes only where its operand names a
slot. -/
theorem responsesHaveTheirKind : Obligations.ResponsesHaveTheirKind := by
  intro i s t h
  obtain ⟨hs, ⟨k, -, rfl⟩ | ⟨hf, rfl⟩⟩ := exec_next_cases h
  · exact .inl ⟨k, rfl, rfl⟩
  · refine .inr ⟨(effectOf_halted i s).trans hs, ?_⟩
    cases i with
    | reset | write8 r v | write16 p w | setFlag f b => rfl
    | read8 r =>
      cases r
      case hlMem => simp [faultOf, Instr.wellFormed, R8.namesRegister] at hf
      all_goals exact ⟨_, rfl⟩
    | read16 p | flag f => exact ⟨_, rfl⟩

/-! ### Faults in their order, and operations that meet none -/

/-- Settles O24: the hypotheses are exactly that the operation meets no fault (`faultOf_eq_none_iff`). -/
theorem everyOperationCompletes : Obligations.EveryOperationCompletes := fun _ _ hs hw hread =>
  exec_completes hs (faultOf_eq_none_iff.2 ⟨hw, hread⟩)

/-- Settles O33: the decoder refuses the reserved words, and after an operation `halted` is its `faultOf`. -/
theorem faultsFollowTheirPriority : Obligations.FaultsFollowTheirPriority := by
  refine fun s w rest hr => ⟨fun k hk => step_halted hk, fun hs => ?_⟩
  by_cases hw : ReservedWord w
  · have hd := decode_of_reservedWord hw
    exact ⟨_, step_of_reject hr hs hd, fun _ => rfl, fun i hi => by simp [hd] at hi⟩
  · obtain ⟨i, hd⟩ := exists_decode_of_not_reservedWord hw
    have hrun := exec_running (s := { s with requests := rest }) i hs
    refine ⟨_, (step_of_decode hr hd).trans hrun, fun h => absurd h hw, fun j hj => ?_⟩
    obtain rfl : i = j := Except.ok.inj (hd.symm.trans hj)
    rw [exec_halted_eq hrun]
    refine ⟨?_, fun hread hwrite => faultOf_of_wellFormed ((wellFormed_iff i).2 ⟨hread, hwrite⟩) _⟩
    rintro (rfl | ⟨v, rfl⟩) <;> rfl

theorem isWritten_of_atPowerOn {s : State} (h : AtPowerOn s) (x : Slot) : s.isWritten x = false := by
  rw [State.isWritten, h.1, has_none]

/-- Settles O34: no slot is written at power-on, so the first slot an operation reads is its fault. -/
theorem powerOnReadsFaultUntilReset : Obligations.PowerOnReadsFaultUntilReset := by
  refine ⟨⟨rfl, rfl⟩, fun s h => ⟨wholeF_low s.f, fun i x xs hw hx => ?_, ?_⟩⟩
  · have hf : faultOf i s = some (.uninitialised x) := by
      simp [faultOf_of_wellFormed hw, hx, isWritten_of_atPowerOn h]
    exact exec_of_faultOf_some h.2 hf
  · exact ⟨_, exec_of_faultOf_none (i := .reset) h.2 rfl, has_all, h.2⟩

theorem zeroSlots_of_running {s : State} (h : s.halted = none) :
    s.zeroSlots = { State.reset with requests := s.requests, response := s.response } := by
  rw [State.zeroSlots, h]
  rfl

/-- Settles O17: RESET keeps of the state only that it is not halted and its queue. -/
theorem stateResetIsTheStateAfterReset : Obligations.StateResetIsTheStateAfterReset := by
  refine ⟨by decide, has_all, rfl, fun s h => ?_⟩
  rw [exec_of_faultOf_none (i := .reset) h rfl, effectOf, zeroSlots_of_running h]
  rfl

/-- Settles O15: each reading unfolds to its field. -/
theorem slotsReadTheirOwnFields : Obligations.SlotsReadTheirOwnFields := fun _ =>
  ⟨⟨rfl, rfl, rfl, rfl, rfl, rfl, rfl, rfl, rfl, rfl⟩, rfl, rfl, rfl, rfl, rfl, rfl, rfl, rfl, rfl, rfl⟩

/-- Settles O37: a completed operation sets the written bits of the slots it writes and keeps the others. -/
theorem writtenBitsOnlyRise : Obligations.WrittenBitsOnlyRise := by
  intro s t x h
  obtain ⟨-, ⟨-, rfl⟩ | ⟨w, rest, hr, ⟨e, -, rfl⟩ | ⟨i, hd, hi⟩⟩⟩ := step_next_cases h
  · exact ⟨id, fun h0 h1 => by simp [h0] at h1⟩
  · have hsame : State.isWritten x ({ s with requests := rest }.raise (rejectFault e)) = s.isWritten x := rfl
    exact ⟨hsame.trans, fun h0 h1 => by simp [hsame, h0] at h1⟩
  · refine ⟨fun hx => exec_isWritten hi hx, fun h0 h1 => ⟨w, rest, i, hr, hd, ?_⟩⟩
    by_contra hx
    have hbit : s.isWritten x = t.isWritten x := (exec_sameSlot hi hx).2
    simp [← hbit, h0] at h1

end Sys2Proof.Machine
end

section
/-! SUPPORT. Changes of F, the halves of a pair written and read, and operations repeated (spec/41_flag_access.md R49,
R50; spec/20_memory.md section 4; spec/95_test_vectors.md S3). -/

namespace Sys2Proof.Machine

/-! ### Which operations change F (R50) -/

theorem f_mem_writeSlots {i : Instr} (h : Slot.byte .f ∈ writeSlots i) :
    i = .reset ∨ (∃ w, i = .write16 .af w) ∨ ∃ f b, i = .setFlag f b := by
  cases i with
  | reset => exact .inl rfl
  | read8 r | read16 p | flag f => exact absurd h List.not_mem_nil
  | write8 r v => exact absurd h (f_notMem_registerSlots r)
  | write16 p w =>
    cases p
    case af => exact .inr (.inl ⟨w, rfl⟩)
    all_goals simp [writeSlots, portSlots, portTarget] at h
  | setFlag f b => exact .inr (.inr ⟨f, b, rfl⟩)

/-- Settles O27: an operation without F in its written cells leaves F as it is. -/
theorem onlyThreeOperationsChangeF : Obligations.OnlyThreeOperationsChangeF := by
  intro i s t h hchange
  apply f_mem_writeSlots
  by_contra hf
  obtain ⟨hvalue, hwritten⟩ := sameSlot_byte_iff.1 (exec_sameSlot h hf)
  rcases hchange with hne | hne
  · exact hne (readByte_f_inj.1 hvalue).symm
  · exact hne hwritten.symm

/-! ### SET_FLAG (R49) -/

theorem getLsbD_flagMask (f : Flag) (q : Nat) : (flagMask f).getLsbD q = decide (q = f.pos) := by
  have hpos : f.pos < 8 := by cases f <;> decide
  have hmask : flagMask f = BitVec.twoPow 8 f.pos := by cases f <;> rfl
  rw [hmask, BitVec.getLsbD_twoPow]
  simp [hpos, eq_comm]

theorem getLsbD_withFlag (f : Flag) (b : Bool) (v : Byte) (q : Nat) :
    (withFlag f b v).getLsbD q = if q = f.pos then b else v.getLsbD q := by
  cases b with
  | false =>
    by_cases hq : q = f.pos
    · simp [withFlag, getLsbD_flagMask, hq]
    · simpa [withFlag, getLsbD_flagMask, hq] using BitVec.lt_of_getLsbD
  | true => by_cases hq : q = f.pos <;> simp [withFlag, getLsbD_flagMask, hq]

/-- A flag lies in the high nibble, so setting it in F as it reads leaves the low nibble 0 and F keeps the result. -/
theorem wholeF_storedF_withFlag (f : Flag) (b : Bool) (q : BitVec 4) :
    wholeF (storedF (withFlag f b (wholeF q))) = withFlag f b (wholeF q) := by
  revert q
  cases f <;> cases b <;> decide

theorem writeByte_f_of_isWritten {s : State} (h : s.isWritten (.byte .f) = true) (v : Byte) :
    s.writeByte .f v = { s with f := storedF v } := by
  have hmark : s.written.mark (.byte .f) = s.written := mark_of_has (.byte .f) s.written h
  rw [State.writeByte, State.mark, State.storeByte, hmark]

theorem faultOf_setFlag (f : Flag) (b : Bool) (s : State) :
    faultOf (.setFlag f b) s = if s.isWritten (.byte .f) = false then some (.uninitialised (.byte .f)) else none :=
  faultOf_of_readSlots_singleton rfl rfl s

/-- Settles O23: SET_FLAG reads F alone, and `withFlag` makes one bit of it. -/
theorem setFlagWritesOneBit : Obligations.SetFlagWritesOneBit := by
  refine ⟨fun w f b => ?_, fun s f pos b h hpos => ⟨fun hf => ⟨storedF (withFlag f b (s.readByte .f)), ?_, fun q => ?_⟩,
    fun hf => ?_⟩⟩
  · simp [decode_eq_ok_iff, encode, packWord]
  · rw [exec_of_faultOf_none h (by simp [faultOf_setFlag, hf]), effectOf, writeByte_f_of_isWritten hf]
    rfl
  · rw [State.readByte, wholeF_storedF_withFlag, getLsbD_withFlag, pos_of_mem_flagTable hpos]
  · exact exec_of_faultOf_some h (by simp [faultOf_setFlag, hf])

/-! ### The halves of a pair, written and then read (S3) -/

theorem compose_eq_append (hi lo : Byte) : compose hi lo = hi ++ lo := by
  apply BitVec.eq_of_getLsbD_eq
  intro k hk
  rw [BitVec.getLsbD_append]
  by_cases h8 : k < 8
  · simp [compose, hk, h8]
  · simp [compose, hk, h8, BitVec.getLsbD_of_ge lo k (Nat.le_of_not_lt h8)]

theorem exec_write8_running {r : R8} {y : Slot8} {s : State} (hr : (r, y) ∈ registerTable) (h : s.halted = none)
    (v : Byte) : exec (.write8 r v) s = .next ((s.writeByte y v).respond .ack) := by
  have hf : faultOf (.write8 r v) s = none :=
    faultOf_eq_none_iff.2 ⟨namesRegister_of_mem_registerTable hr, List.forall_mem_nil _⟩
  rw [exec_running _ h, hf, effectOf, responseOf, mem_registerTable_iff.1 hr]

/-- Settles O30: the second write leaves the first half as it is, and the read composes the two halves. -/
theorem writeHalvesThenReadPair : Obligations.WriteHalvesThenReadPair := by
  intro p hi lo rh rl s x y h hp hrh hrl
  obtain ⟨hne, hhi, -⟩ := pair_halves hp
  have ht := exec_write8_running hrh h x
  have hu := exec_write8_running (s := (s.writeByte hi x).respond .ack) hrl (by simpa using h) y
  refine ⟨_, _, ht, hu, ?_⟩
  rw [exec_read16_of_faultOf_none (by simpa using h)
    (by simp [faultOf_read16_pair hp, writeByte_isWritten]), portValue_of_pair hp, compose_eq_append]
  simp [writeByte_readByte_other _ _ _ _ hne, writeByte_readByte_same, kept, hhi, ne_f_of_mem_registerTable hrl]

/-! ### Operations repeated (R24) -/

theorem withFlag_withFlag (f : Flag) (b : Bool) (v : Byte) : withFlag f b (withFlag f b v) = withFlag f b v := by
  apply BitVec.eq_of_getLsbD_eq
  intro q _
  by_cases hq : q = f.pos <;> simp [getLsbD_withFlag, hq]

theorem storeByte_readByte (s : State) (y : Slot8) : s.storeByte y (s.readByte y) = s := by
  cases y
  case f => rw [State.storeByte, State.readByte, storedF_wholeF]
  all_goals rfl

theorem storeByte_kept (s : State) (y : Slot8) (v : Byte) : s.storeByte y (kept y v) = s.storeByte y v := by
  by_cases hy : y = .f
  · subst hy
    rw [kept_f, ← wholeF_storedF, State.storeByte, State.storeByte, storedF_wholeF]
  · rw [kept, if_neg hy]

/-- Writing what a written slot already holds changes nothing. -/
theorem writeByte_eq_self {s : State} {y : Slot8} {v : Byte} (hy : s.isWritten (.byte y) = true)
    (hv : s.readByte y = kept y v) : s.writeByte y v = s := by
  rw [State.writeByte, ← storeByte_kept, ← hv, storeByte_readByte, State.mark, mark_of_has _ _ hy]

theorem writeWord_eq_self {s : State} {z : Slot16} {u : Word} (hz : s.isWritten (.word z) = true)
    (hu : s.readWord z = u) : s.writeWord z u = s := by
  have hstore : s.storeWord z u = s := by subst hu; cases z <;> rfl
  rw [State.writeWord, hstore, State.mark, mark_of_has _ _ hz]

theorem writeByte_repeat (s : State) (y : Slot8) (v : Byte) (r : Response) :
    ((s.writeByte y v).respond r).writeByte y v = (s.writeByte y v).respond r :=
  writeByte_eq_self (by simp [writeByte_isWritten]) (writeByte_readByte_same s y v)

theorem pairTable_or_wordTable (p : P16) : (∃ hi lo, (p, hi, lo) ∈ pairTable) ∨ ∃ z, (p, z) ∈ wordTable := by
  cases ht : portTarget p with
  | pair hi lo => exact .inl ⟨hi, lo, mem_pairTable_iff.2 ht⟩
  | slot z => exact .inr ⟨z, mem_wordTable_iff.2 ht⟩

theorem writePort_of_pair {p : P16} {hi lo : Slot8} (hp : (p, hi, lo) ∈ pairTable) (w : Word) (s : State) :
    writePort p w s = (s.writeByte hi (highByte w)).writeByte lo (lowByte w) := by
  simp only [writePort, mem_pairTable_iff.1 hp]

theorem writePort_of_word {p : P16} {z : Slot16} (hp : (p, z) ∈ wordTable) (w : Word) (s : State) :
    writePort p w s = s.writeWord z w := by
  simp only [writePort, mem_wordTable_iff.1 hp]

theorem writePort_repeat (p : P16) (w : Word) (s : State) (r : Response) :
    writePort p w ((writePort p w s).respond r) = (writePort p w s).respond r := by
  have hwritten : ∀ x ∈ portSlots p, ((writePort p w s).respond r).isWritten x = true := fun x hx => by
    simp [writePort_isWritten, hx]
  obtain ⟨hi, lo, hp⟩ | ⟨z, hp⟩ := pairTable_or_wordTable p
  · obtain ⟨-, hhi, -⟩ := pair_halves hp
    rw [portSlots_of_mem_pairTable hp] at hwritten
    have hhigh : (writePort p w s).readByte hi = kept hi (highByte w) := by
      rw [writePort_readByte_high hp, kept, if_neg hhi]
    rw [writePort_of_pair hp w (State.respond _ _), writeByte_eq_self (hwritten _ (by simp)) hhigh,
      writeByte_eq_self (hwritten _ (by simp)) (writePort_readByte_low hp w s)]
  · rw [portSlots_of_mem_wordTable hp] at hwritten
    rw [writePort_of_word hp w (State.respond _ _),
      writeWord_eq_self (hwritten _ (by simp)) (writePort_readWord hp w s)]

/-- The effect of an operation, run again on the state it left. -/
theorem effectOf_repeat (i : Instr) (s : State) (r : Response) :
    effectOf i ((effectOf i s).respond r) = (effectOf i s).respond r := by
  cases i with
  | reset | read8 _ | read16 _ | flag _ => rfl
  | write8 q v =>
    cases hq : slot8? q with
    | none => simp only [effectOf, hq]
    | some y => simpa only [effectOf, hq] using writeByte_repeat s y v r
  | write16 p w => exact writePort_repeat p w s r
  | setFlag f b =>
    have hF : (effectOf (.setFlag f b) s).readByte .f = withFlag f b (s.readByte .f) := wholeF_storedF_withFlag f b s.f
    rw [effectOf, State.respond_readByte, hF, withFlag_withFlag]
    exact writeByte_repeat s .f _ r

/-- A repeated operation answers the same: only the operations that change no slot respond with what they read. -/
theorem responseOf_repeat (i : Instr) (s : State) (r : Response) :
    responseOf i ((effectOf i s).respond r) = responseOf i s := by
  cases i with
  | reset | write8 _ _ | write16 _ _ | setFlag _ _ => rfl
  | read8 _ | read16 _ | flag _ => exact (responseOf_congr fun x _ => sameSlot_respond x s r).symm

theorem faultOf_repeat {i : Instr} {s : State} (h : faultOf i s = none) (r : Response) :
    faultOf i ((effectOf i s).respond r) = none := by
  obtain ⟨hw, hread⟩ := faultOf_eq_none_iff.1 h
  exact faultOf_eq_none_iff.2 ⟨hw, fun x hx => by simp [effectOf_isWritten, hread x hx]⟩

theorem exec_repeat {i : Instr} {s t : State} (h : exec i s = .next t) (ht : t.halted = none) : exec i t = .next t := by
  have hf : faultOf i s = none := (exec_halted_eq h).symm.trans ht
  rw [exec_running i ht]
  obtain rfl := exec_of_no_fault h hf
  rw [faultOf_repeat hf, effectOf_repeat, responseOf_repeat]
  rfl

/-- Settles O31: reads have no written cells, and a completed operation meets the same slots again. -/
theorem readsArePureAndWritesIdempotent : Obligations.ReadsArePureAndWritesIdempotent := by
  refine fun i s t h => ⟨fun hread x => exec_sameSlot h ?_, exec_repeat h⟩
  obtain ⟨r, rfl⟩ | ⟨p, rfl⟩ | ⟨f, rfl⟩ := hread <;> exact List.not_mem_nil

end Sys2Proof.Machine
end

section
/-! SUPPORT. Runs of any length: the queue they take, the slots they leave, the last write a read answers, and the
client that stays in the source's domain (spec/20_memory.md section 5, spec/60_exceptions.md section 1). -/

namespace Sys2Proof.Machine

/-! ### One step of a run -/

/-- A step takes the oldest waiting word, if there is one. -/
theorem step_requests {s t : State} (h : step s = .next t) : t.requests = s.requests.tail := by
  obtain ⟨-, ⟨hr, rfl⟩ | ⟨w, rest, hr, ⟨e, -, rfl⟩ | ⟨i, -, hi⟩⟩⟩ := step_next_cases h
  · rw [hr, List.tail_nil]
  · rw [hr, State.raise_requests, List.tail_cons]
  · rw [hr, exec_requests hi, List.tail_cons]

/-- A step leaves every slot that the operation of the oldest waiting word does not write. -/
theorem step_sameSlot {s t : State} {x : Slot} (h : step s = .next t)
    (hx : ∀ w ∈ s.requests.head?, ∀ i, decode w = .ok i → x ∉ writeSlots i) : SameSlot x s t := by
  obtain ⟨-, ⟨-, rfl⟩ | ⟨w, rest, hr, ⟨e, -, rfl⟩ | ⟨i, hd, hi⟩⟩⟩ := step_next_cases h
  · exact sameSlot_refl x t
  · exact sameSlot_trans (sameSlot_requests x s rest) (sameSlot_raise x _ _)
  · have hw : x ∉ writeSlots i := hx w (by simp [hr]) i hd
    exact sameSlot_trans (sameSlot_requests x s rest) (exec_sameSlot hi hw)

theorem runSteps_succ_next {n : Nat} {s u : State} (h : runSteps (n + 1) s = .next u) :
    ∃ t, step s = .next t ∧ runSteps n t = .next u := by
  rw [runSteps_succ] at h
  cases hs : step s with
  | next t => exact ⟨t, rfl, by simpa [hs] using h⟩
  | fault r | refused r => simp [hs] at h

/-! ### Runs of any length -/

/-- A run of `n` steps takes the first `n` waiting words. -/
theorem runSteps_requests {n : Nat} {s t : State} (h : runSteps n s = .next t) : t.requests = s.requests.drop n := by
  induction n generalizing s with
  | zero =>
    obtain rfl := Host.Outcome.next.inj h
    rfl
  | succ n ih =>
    obtain ⟨u, hu, hrun⟩ := runSteps_succ_next h
    rw [ih hrun, step_requests hu, List.drop_tail]

/-- Settles O38, by induction on the number of steps. -/
theorem untouchedSlotsKeepTheirValueOverAnyRun : Obligations.UntouchedSlotsKeepTheirValueOverAnyRun := by
  intro n
  induction n with
  | zero =>
    intro s t x h _
    obtain rfl := Host.Outcome.next.inj h
    exact sameSlot_refl x s
  | succ n ih =>
    intro s t x h hx
    obtain ⟨u, hu, hrun⟩ := runSteps_succ_next h
    have hqueue : s.requests.take (n + 1) = s.requests.head?.toList ++ u.requests.take n := by
      rw [step_requests hu]
      cases s.requests <;> simp
    rw [hqueue] at hx
    have hhead := fun w hw => hx w (List.mem_append_left _ (Option.mem_toList.2 hw))
    have htail := fun w hw => hx w (List.mem_append_right _ hw)
    exact sameSlot_trans (step_sameSlot hu hhead) (ih u t x hrun htail)

/-! ### A client in the source's domain (R52) -/

/-- A fully written, running block whose client has only operations of the source's domain waiting. -/
structure InDomain (s : State) : Prop where
  written : AllWritten s
  running : s.halted = none
  waiting : ∀ w ∈ s.requests, ∃ i, decode w = .ok i ∧ i.wellFormed = true

/-- The invariant: an operation of the domain reads only written slots, so it completes, and no written bit falls. -/
theorem step_inDomain {s : State} (h : InDomain s) : ∃ t, step s = .next t ∧ InDomain t := by
  obtain ⟨hwritten, hs, hwaiting⟩ := h
  cases hr : s.requests with
  | nil => exact ⟨s, (step_of_idle hr).trans (idle_next_iff.2 ⟨hs, rfl⟩), hwritten, hs, hwaiting⟩
  | cons w rest =>
    obtain ⟨i, hd, hw⟩ := hwaiting w (by simp [hr])
    obtain ⟨t, -, ht, hrunning, -⟩ :=
      everyOperationCompletes i { s with requests := rest } hs hw fun x _ => hwritten x
    refine ⟨t, (step_of_decode hr hd).trans ht, fun x => exec_isWritten ht (hwritten x), hrunning, fun v hv => ?_⟩
    rw [exec_requests ht] at hv
    exact hwaiting v (by simp [hr, hv])

theorem runSteps_inDomain (n : Nat) {s : State} (h : InDomain s) : ∃ t, runSteps n s = .next t ∧ InDomain t := by
  induction n generalizing s with
  | zero => exact ⟨s, rfl, h⟩
  | succ n ih =>
    obtain ⟨t, ht, hdomain⟩ := step_inDomain h
    rw [runSteps_succ, ht]
    exact ih hdomain

/-- Settles O32: `InDomain` holds along the run. -/
theorem domainRunsNeverHalt : Obligations.DomainRunsNeverHalt := by
  intro n s hwritten hs hwaiting
  obtain ⟨t, ht, hdomain⟩ := runSteps_inDomain n ⟨hwritten, hs, hwaiting⟩
  exact ⟨t, ht, hdomain.running, hdomain.written, runSteps_requests ht⟩

/-! ### A read after the last write of its slots (R25) -/

section LastWrite

variable {s m : State} {i j : Instr} {between : List Instr}
  (hr : s.requests = encode i :: between.map encode ++ [encode j])
  (hrun : runSteps (between.length + 1) s = .next m)
include hr hrun

/-- The first of the issued operations has run, and when the last one is taken the slots that none of those between
writes are as it left them. -/
theorem sameSlot_before_last : ∃ rest t, exec i { s with requests := rest } = .next t ∧
    ∀ x, (∀ k ∈ between, x ∉ writeSlots k) → SameSlot x t { m with requests := [] } := by
  obtain ⟨t, ht, hrest⟩ := runSteps_succ_next hrun
  have htake : t.requests.take between.length = between.map encode := by
    rw [step_requests ht, hr, List.cons_append, List.tail_cons, List.take_left' (List.length_map _)]
  rw [step_of_decode hr (decode_encode i)] at ht
  refine ⟨_, t, ht, fun x hx => sameSlot_trans ?_ (sameSlot_requests x m [])⟩
  refine untouchedSlotsKeepTheirValueOverAnyRun _ _ _ x hrest fun w hw k hk => ?_
  rw [htake] at hw
  obtain ⟨k', hk', rfl⟩ := List.mem_map.1 hw
  obtain rfl : k' = k := Except.ok.inj ((decode_encode k').symm.trans hk)
  exact hx k' hk'

/-- The last of the issued operations runs next, and takes the last word of the queue. -/
theorem runSteps_last : runSteps (between.length + 2) s = exec j { m with requests := [] } := by
  have hqueue : m.requests = [encode j] := by
    rw [runSteps_requests hrun, hr, List.cons_append, List.drop_succ_cons, List.drop_left' (List.length_map _)]
  have hstep := step_of_decode hqueue (decode_encode j)
  rw [runSteps_add (between.length + 1) 1, hrun]
  simp only [runSteps, hstep]
  cases exec j { m with requests := [] } <;> rfl

end LastWrite

theorem compose_highByte_lowByte (w : Word) : compose (highByte w) (lowByte w) = w := by
  rw [compose_eq_append, lowByte_eq_setWidth, highByte]
  apply BitVec.eq_of_getLsbD_eq
  intro k hk
  rw [BitVec.getLsbD_append]
  by_cases h8 : k < 8
  · simp [h8]
  · simp [h8, show k - 8 < 8 by omega, show 8 + (k - 8) = k by omega]

/-- Masking the low byte of AF before it is stored is masking bits 3..0 of the word (R47). -/
theorem compose_highByte_lowByte_masked (w : Word) : compose (highByte w) (lowByte w &&& 0xF0) = w &&& 0xFFF0 :=
  calc compose (highByte w) (lowByte w &&& 0xF0)
      = (highByte w &&& BitVec.allOnes 8) ++ (lowByte w &&& 0xF0) := by rw [compose_eq_append, BitVec.and_allOnes]
    _ = compose (highByte w) (lowByte w) &&& 0xFFF0 := by rw [← BitVec.and_append, compose_eq_append]; rfl
    _ = w &&& 0xFFF0 := by rw [compose_highByte_lowByte]

theorem compose_highByte_kept {p : P16} {lo : Slot8} (hlo : lo = .f ↔ p = .af) (w : Word) :
    compose (highByte w) (kept lo (lowByte w)) = keptWord p w := by
  by_cases hp : p = .af
  · rw [kept, keptWord, if_pos (hlo.2 hp), if_pos hp, compose_highByte_lowByte_masked]
  · rw [kept, keptWord, if_neg (mt hlo.1 hp), if_neg hp, compose_highByte_lowByte]

/-- A `p16` operand reads the word written to it, AF masked. -/
theorem portValue_writePort (p : P16) (w : Word) (s : State) : portValue p (writePort p w s) = keptWord p w := by
  obtain ⟨hi, lo, hp⟩ | ⟨z, hp⟩ := pairTable_or_wordTable p
  · obtain ⟨-, -, hlo⟩ := pair_halves hp
    rw [portValue_of_pair hp, writePort_readByte_high hp, writePort_readByte_low hp, compose_highByte_kept hlo]
  · have hne : p ≠ .af := by rintro rfl; simp [wordTable] at hp
    rw [portValue_of_word hp, writePort_readWord hp, keptWord, if_neg hne]

/-- Settles O39: the slots of the operand are as WRITE16 left them, written and with its word. -/
theorem read16AnswersTheLastWrite16 : Obligations.Read16AnswersTheLastWrite16 := by
  intro s m p w between hs hr hbetween hrun hm
  obtain ⟨rest, t, ht, hsame⟩ := sameSlot_before_last hr hrun
  obtain rfl := exec_write16_next ht
  have hport := fun x hx => hsame x fun k hk => hbetween k hk x hx
  have hwritten : ∀ x ∈ portSlots p, State.isWritten x { m with requests := [] } = true := fun x hx => by
    rw [← (hport x hx).2, State.respond_isWritten, writePort_isWritten]
    simp [hx]
  have hvalue : portValue p { m with requests := [] } = keptWord p w :=
    (portValue_congr hport).symm.trans (portValue_writePort p w _)
  have hread := exec_read16_of_faultOf_none (s := { m with requests := [] }) hm (faultOf_eq_none_iff.2 ⟨rfl, hwritten⟩)
  rw [runSteps_last hr hrun, hread, hvalue]

/-- Settles O40: the register is as WRITE8 left it, written and with its byte. -/
theorem read8AnswersTheLastWrite8 : Obligations.Read8AnswersTheLastWrite8 := by
  intro s m r y v between hs hy hr hbetween hrun hm
  obtain ⟨rest, t, ht, hsame⟩ := sameSlot_before_last hr hrun
  obtain rfl := Host.Outcome.next.inj ((exec_write8_running (s := { s with requests := rest }) hy hs v).symm.trans ht)
  obtain ⟨hbyte, hbit⟩ := sameSlot_byte_iff.1 (hsame _ hbetween)
  have hwritten : State.isWritten (.byte y) { m with requests := [] } = true := by
    rw [← hbit, State.respond_isWritten, writeByte_isWritten]
    simp
  have hvalue : State.readByte y { m with requests := [] } = v := by
    rw [← hbyte, State.respond_readByte, writeByte_readByte_same, kept, if_neg (ne_f_of_mem_registerTable hy)]
  have hread := exec_of_faultOf_none (i := .read8 r) (s := { m with requests := [] }) hm
    (by simp [faultOf_read8 hy, hwritten])
  rw [runSteps_last hr hrun, hread, responseOf_read8 hy, hvalue]
  rfl

end Sys2Proof.Machine
end
